-- ==== Sys2Proof/Word.lean ====
section
/-! DEFINITION. The machine's units of data and the three operation widths: 00_scope.md R9, R10. -/

namespace Sys2Proof

/-- A byte, 8 bits (R9). -/
abbrev Byte := BitVec 8

/-- A word, 16 bits: the granularity of the instruction stream (R9). -/
abbrev Word := BitVec 16

/-- A long, 32 bits: registers, addresses and the program counter (R9, R26, R40). -/
abbrev Long := BitVec 32

/-- An operation width `w`, written `.B`, `.W`, `.L` in assembly text (R9). -/
inductive Width
  | byte
  | word
  | long
  deriving DecidableEq, Repr

/-- `w` as a number of bytes: 1, 2 or 4 (R9). -/
def Width.bytes : Width → Nat
  | .byte => 1
  | .word => 2
  | .long => 4

/-- `bits(w) = 8 * w` (R9). Reducible, so that a value of byte width is a `BitVec 8` wherever Lean
looks. -/
abbrev Width.bits : Width → Nat
  | .byte => 8
  | .word => 16
  | .long => 32

/-- The width a width tag of 1, 2 or 4 bytes names; no other tag names one (R101). -/
def Width.ofBytes? (tag : Nat) : Option Width :=
  if tag = 1 then some .byte
  else if tag = 2 then some .word
  else if tag = 4 then some .long
  else none

/-- A value of `w` bytes: the raw bits, `8w` of them (R10, R100). -/
abbrev Value (w : Width) := BitVec w.bits

end Sys2Proof
end

