-- ==== Sys2Proof/Config.lean ====
section
/-! DEFINITION. What the spec leaves to the model's argument: 00_scope.md R7, 93_implementation_defined.md Part 2.

R7's parameters and where each one stands:
* `ABS_SHORT_EXT` (OPEN): `Config.absShortExt` below, of no known value (log 4);
* `MEM_SIZE` (OPEN): the size held in the memory of a state, so that it is an argument of every step (log 3);
  its bound is `Config.maxMemSize`;
* `INIT_STATE` (OPEN): any state; `State.reset` is the one the model names (logs 1, 2, 3);
* `TAG_CMP`, `TAG_CMPI`, the size codes, `EA_CODE` (defaults): Decode.lean (log 5);
* `SP_INDEX`, `PCREL_BASE` (defaults): Machine/Operands.lean (logs 7, 8). -/

namespace Sys2Proof

/-- The two ways a 16-bit absolute address with bit 15 set may become a 32-bit one (R7, R129). -/
inductive AbsShortExt
  | zero
  | sign
  deriving DecidableEq, Repr, Inhabited

/-- `ABS_SHORT_EXT`, which the spec leaves OPEN (R7, R129): one of the two, and nothing in Lean can
tell which. Every claim about the upper half of the short addresses holds for both. Log 4,
DESIGN CHOICE, safe. -/
opaque Config.absShortExt : AbsShortExt

/-- The largest memory there can be: `MEM_SIZE <= 2^32` (R7). -/
def Config.maxMemSize : Nat := 4294967296

/-- `MEM_SIZE` of the reset state, the size the spec's own vectors use (95_test_vectors.md). The spec
leaves it OPEN: log 3, DESIGN CHOICE, unsafe for a claim about the reset state only. -/
def Config.resetMemSize : Nat := 65536

end Sys2Proof
end

