-- ==== Sys2Proof/Syntax.lean ====
section
/-! DEFINITION. Operands and instructions as syntax: 41_operand_resolution.md R120, 42_decoder_dispatch.md R150. -/

namespace Sys2Proof

/-- The ten addressing-mode tags (R70, R120). -/
inductive AddrMode
  | dataRegisterDirect
  | addressRegisterDirect
  | addressRegisterIndirect
  | postincrement
  | predecrement
  | indirectWithDisplacement
  | absoluteShort
  | absoluteLong
  | programCounterDisplacement
  | immediate
  deriving DecidableEq, Repr

/-- All ten tags, in the order of R70's table. -/
def AddrMode.all : List AddrMode :=
  [.dataRegisterDirect, .addressRegisterDirect, .addressRegisterIndirect, .postincrement,
   .predecrement, .indirectWithDisplacement, .absoluteShort, .absoluteLong,
   .programCounterDisplacement, .immediate]

/-- An operand record of an instruction of width `w` (R120). The payload ranges of R151 are the types:
a register index is below 8, a displacement is 16 bits of two's complement, an immediate is a `w`-byte
number (R152). -/
inductive Operand (w : Width)
  | dataRegisterDirect (n : Fin 8)
  | addressRegisterDirect (n : Fin 8)
  | addressRegisterIndirect (n : Fin 8)
  | postincrement (n : Fin 8)
  | predecrement (n : Fin 8)
  | indirectWithDisplacement (n : Fin 8) (disp : Word)
  | absoluteShort (addr16 : Word)
  | absoluteLong (addr32 : Long)
  | programCounterDisplacement (disp : Word)
  | immediate (value : Value w)
  deriving DecidableEq, Repr

/-- The tag of an operand record. -/
def Operand.mode {w : Width} : Operand w → AddrMode
  | .dataRegisterDirect _ => .dataRegisterDirect
  | .addressRegisterDirect _ => .addressRegisterDirect
  | .addressRegisterIndirect _ => .addressRegisterIndirect
  | .postincrement _ => .postincrement
  | .predecrement _ => .predecrement
  | .indirectWithDisplacement _ _ => .indirectWithDisplacement
  | .absoluteShort _ => .absoluteShort
  | .absoluteLong _ => .absoluteLong
  | .programCounterDisplacement _ => .programCounterDisplacement
  | .immediate _ => .immediate

/-- The register index of a record that has one. -/
def Operand.register? {w : Width} : Operand w → Option (Fin 8)
  | .dataRegisterDirect n => some n
  | .addressRegisterDirect n => some n
  | .addressRegisterIndirect n => some n
  | .postincrement n => some n
  | .predecrement n => some n
  | .indirectWithDisplacement n _ => some n
  | .absoluteShort _ => none
  | .absoluteLong _ => none
  | .programCounterDisplacement _ => none
  | .immediate _ => none

/-- An operand record as it comes from outside, before any range is checked: what `Construct` receives
(R94, R151). An immediate may be any integer (R152). -/
inductive OperandRecord
  | dataRegisterDirect (n : Nat)
  | addressRegisterDirect (n : Nat)
  | addressRegisterIndirect (n : Nat)
  | postincrement (n : Nat)
  | predecrement (n : Nat)
  | indirectWithDisplacement (n : Nat) (disp : Int)
  | absoluteShort (addr : Nat)
  | absoluteLong (addr : Nat)
  | programCounterDisplacement (disp : Int)
  | immediate (value : Int)
  deriving DecidableEq, Repr

/-- The two instruction families (R3). -/
inductive Family
  | cmp
  | cmpi
  deriving DecidableEq, Repr

/-- The instructions, one constructor for each row of opcode_table.json (R150). The destination of `CMP`
is always `DataRegisterDirect(dn)` (R62) and the source of `CMPI` always `Immediate(value)` (R63), so
only the other operand is a record. -/
inductive Instr
  | cmpB (src : Operand .byte) (dn : Fin 8)
  | cmpW (src : Operand .word) (dn : Fin 8)
  | cmpL (src : Operand .long) (dn : Fin 8)
  | cmpiB (value : Value .byte) (dst : Operand .byte)
  | cmpiW (value : Value .word) (dst : Operand .word)
  | cmpiL (value : Value .long) (dst : Operand .long)
  deriving DecidableEq, Repr

/-- The `CMP` instruction of width `w`: `cmpB`, `cmpW` or `cmpL`. -/
def Instr.cmp : (w : Width) → Operand w → Fin 8 → Instr
  | .byte, src, dn => .cmpB src dn
  | .word, src, dn => .cmpW src dn
  | .long, src, dn => .cmpL src dn

/-- The `CMPI` instruction of width `w`: `cmpiB`, `cmpiW` or `cmpiL`. -/
def Instr.cmpi : (w : Width) → Value w → Operand w → Instr
  | .byte, value, dst => .cmpiB value dst
  | .word, value, dst => .cmpiW value dst
  | .long, value, dst => .cmpiL value dst

/-- The `family` of an instruction record (R150). -/
def Instr.family : Instr → Family
  | .cmpB _ _ => .cmp
  | .cmpW _ _ => .cmp
  | .cmpL _ _ => .cmp
  | .cmpiB _ _ => .cmpi
  | .cmpiW _ _ => .cmpi
  | .cmpiL _ _ => .cmpi

/-- The operation width `w` of an instruction record (R150). -/
def Instr.width : Instr → Width
  | .cmpB _ _ => .byte
  | .cmpW _ _ => .word
  | .cmpL _ _ => .long
  | .cmpiB _ _ => .byte
  | .cmpiW _ _ => .word
  | .cmpiL _ _ => .long

/-- The `src` of an instruction record (R150, R210, R220). -/
def Instr.src : (i : Instr) → Operand i.width
  | .cmpB src _ => src
  | .cmpW src _ => src
  | .cmpL src _ => src
  | .cmpiB value _ => .immediate value
  | .cmpiW value _ => .immediate value
  | .cmpiL value _ => .immediate value

/-- The `dst` of an instruction record (R150, R210, R220). -/
def Instr.dst : (i : Instr) → Operand i.width
  | .cmpB _ dn => .dataRegisterDirect dn
  | .cmpW _ dn => .dataRegisterDirect dn
  | .cmpL _ dn => .dataRegisterDirect dn
  | .cmpiB _ dst => dst
  | .cmpiW _ dst => dst
  | .cmpiL _ dst => dst

end Sys2Proof
end

