-- ==== Sys2Proof/WellFormed.lean ====
section
/-! DEFINITION. Operand legality: 42_decoder_dispatch.md R151, 30_encoding.md R77. -/

namespace Sys2Proof

/-- The modes `CMPI` takes as its destination: any but `AddressRegisterDirect` and `Immediate`
(R77, R151, R220). -/
def AddrMode.cmpiDestination : AddrMode → Bool
  | .dataRegisterDirect => true
  | .addressRegisterDirect => false
  | .addressRegisterIndirect => true
  | .postincrement => true
  | .predecrement => true
  | .indirectWithDisplacement => true
  | .absoluteShort => true
  | .absoluteLong => true
  | .programCounterDisplacement => true
  | .immediate => false

/-- Whether an instruction is one `Construct` accepts (R150, R151). `CMP` takes all ten modes as its
source at every width (R77); the rest of its legality, and every payload range, is in the types. -/
def Instr.wf : Instr → Bool
  | .cmpB _ _ => true
  | .cmpW _ _ => true
  | .cmpL _ _ => true
  | .cmpiB _ dst => dst.mode.cmpiDestination
  | .cmpiW _ dst => dst.mode.cmpiDestination
  | .cmpiL _ dst => dst.mode.cmpiDestination

end Sys2Proof
end

