-- ==== Sys2Proof/Decode.lean ====
section
/-! DEFINITION. The decoder unit and the encoder: 30_encoding.md R60 to R82, 42_decoder_dispatch.md R160, R170 to
R180. The numbers (tags, size codes, addressing codes) are the spec's default parameters: log 5, PRESUMED. -/

namespace Sys2Proof

/-! ### The parameters of the encoding -/

/-- `TAG_CMP` (R62). -/
def tagCmp : BitVec 4 := 0b1011#4

/-- `TAG_CMPI` (R63). -/
def tagCmpi : BitVec 8 := 0b00001100#8

/-- `OPMODE_B`, `OPMODE_W`, `OPMODE_L`: the 3-bit size codes of `CMP` (R64). -/
def opmodeCode : Width → BitVec 3
  | .byte => 0b000#3
  | .word => 0b001#3
  | .long => 0b010#3

/-- `SIZE_B`, `SIZE_W`, `SIZE_L`: the 2-bit size codes of `CMPI` (R65). -/
def sizeCode : Width → BitVec 2
  | .byte => 0b00#2
  | .word => 0b01#2
  | .long => 0b10#2

/-- The 3-bit `mode` code of `EA_CODE` (R70). -/
def modeCode : AddrMode → BitVec 3
  | .dataRegisterDirect => 0b000#3
  | .addressRegisterDirect => 0b001#3
  | .addressRegisterIndirect => 0b010#3
  | .postincrement => 0b011#3
  | .predecrement => 0b100#3
  | .indirectWithDisplacement => 0b101#3
  | .absoluteShort => 0b111#3
  | .absoluteLong => 0b111#3
  | .programCounterDisplacement => 0b111#3
  | .immediate => 0b111#3

/-- The 3-bit `reg` code of `EA_CODE` for a mode that has no register; `none` where the field holds the
register index `n` (R70). -/
def regCode : AddrMode → Option (BitVec 3)
  | .dataRegisterDirect => none
  | .addressRegisterDirect => none
  | .addressRegisterIndirect => none
  | .postincrement => none
  | .predecrement => none
  | .indirectWithDisplacement => none
  | .absoluteShort => some 0b000#3
  | .absoluteLong => some 0b001#3
  | .programCounterDisplacement => some 0b010#3
  | .immediate => some 0b100#3

/-! ### Reading the parameters backwards -/

/-- The width an `opmode` field selects, if any (R64, R171 step 4). -/
def opmodeWidth (opmode : BitVec 3) : Option Width :=
  if opmode = opmodeCode .byte then some .byte
  else if opmode = opmodeCode .word then some .word
  else if opmode = opmodeCode .long then some .long
  else none

/-- The width a `size` field selects, if any (R65, R173 step 5). -/
def sizeWidth (size : BitVec 2) : Option Width :=
  if size = sizeCode .byte then some .byte
  else if size = sizeCode .word then some .word
  else if size = sizeCode .long then some .long
  else none

/-- The mode an addressing code selects: the row of `EA_CODE` it is in, or none for the codes of R76. -/
def eaMode (mode reg : BitVec 3) : Option AddrMode :=
  AddrMode.all.find? fun t => decide (modeCode t = mode) && decide ((regCode t).getD reg = reg)

/-! ### Lengths -/

/-- `ext`: how many extension words an operand of this mode has at width `w` (R71). -/
def AddrMode.ext (w : Width) : AddrMode → Nat
  | .dataRegisterDirect => 0
  | .addressRegisterDirect => 0
  | .addressRegisterIndirect => 0
  | .postincrement => 0
  | .predecrement => 0
  | .indirectWithDisplacement => 1
  | .absoluteShort => 1
  | .absoluteLong => 2
  | .programCounterDisplacement => 1
  | .immediate => match w with
    | .byte => 1
    | .word => 1
    | .long => 2

/-- `L`: the opcode word and the extension words of the two operands (R80). The data register that is the
destination of `CMP` has none. -/
def lengthWords {w : Width} (src dst : Operand w) : Nat :=
  1 + src.mode.ext w + dst.mode.ext w

/-- The length of an instruction in words (R80). -/
def Instr.lengthWords (i : Instr) : Nat := Sys2Proof.lengthWords i.src i.dst

/-! ### Decode -/

/-- How the decoder turns an input away (R240 to R243). -/
inductive Reject
  /-- Category 1: the tag matches a family, another field breaks that family's rules (R77, R241). -/
  | illegalOperand
  /-- Category 2: no family owns the opcode word (R78, R242). -/
  | noMatch
  /-- Category 3: fewer bytes than the instruction needs (R172, R243). -/
  | malformed
  deriving DecidableEq, Repr

/-- `word(k) = bytes[2k] ++ bytes[2k+1]` (R61, R170). The decoder checks the length before it looks. -/
def wordAt (bytes : List Byte) (k : Nat) : Word :=
  bytes.getD (2 * k) 0#8 ++ bytes.getD (2 * k + 1) 0#8

/-- The immediate of width `w` whose words start at word index `j`; the high byte of a byte immediate's
word is ignored (R74). -/
def immediateAt (bytes : List Byte) (j : Nat) : (w : Width) → Value w
  | .byte => (wordAt bytes j).extractLsb' 0 8
  | .word => wordAt bytes j
  | .long => wordAt bytes j ++ wordAt bytes (j + 1)

/-- `OperandOf(mode, reg, w, j)`: the record of a mode, its register field and its extension words, which
start at word index `j` (R176). -/
def operandOf (mode : AddrMode) (reg : BitVec 3) (w : Width) (bytes : List Byte) (j : Nat) :
    Operand w :=
  match mode with
  | .dataRegisterDirect => .dataRegisterDirect reg.toFin
  | .addressRegisterDirect => .addressRegisterDirect reg.toFin
  | .addressRegisterIndirect => .addressRegisterIndirect reg.toFin
  | .postincrement => .postincrement reg.toFin
  | .predecrement => .predecrement reg.toFin
  | .indirectWithDisplacement => .indirectWithDisplacement reg.toFin (wordAt bytes j)
  | .absoluteShort => .absoluteShort (wordAt bytes j)
  | .absoluteLong => .absoluteLong (wordAt bytes j ++ wordAt bytes (j + 1))
  | .programCounterDisplacement => .programCounterDisplacement (wordAt bytes j)
  | .immediate => .immediate (immediateAt bytes j w)

/-- `DecodeCMP` (R171): the opcode word's fields are those of format `CMP` (R62). -/
def decodeCmp (bytes : List Byte) : Except Reject Instr :=
  if bytes.length < 2 then .error .malformed
  else if (wordAt bytes 0).extractLsb' 12 4 ≠ tagCmp then .error .noMatch
  else
    match opmodeWidth ((wordAt bytes 0).extractLsb' 6 3) with
    | none => .error .illegalOperand
    | some w =>
      match eaMode ((wordAt bytes 0).extractLsb' 3 3) ((wordAt bytes 0).extractLsb' 0 3) with
      | none => .error .illegalOperand
      | some mode =>
        if bytes.length < 2 + 2 * mode.ext w then .error .malformed
        else .ok (Instr.cmp w (operandOf mode ((wordAt bytes 0).extractLsb' 0 3) w bytes 1)
          ((wordAt bytes 0).extractLsb' 9 3).toFin)

/-- `DecodeCMPI` (R173): the opcode word's fields are those of format `CMPI` (R63). The tag is compared
before the 4-byte minimum of the family is checked (90_conflicts.md C10). -/
def decodeCmpi (bytes : List Byte) : Except Reject Instr :=
  if bytes.length < 2 then .error .malformed
  else if (wordAt bytes 0).extractLsb' 8 8 ≠ tagCmpi then .error .noMatch
  else if bytes.length < 4 then .error .malformed
  else
    match sizeWidth ((wordAt bytes 0).extractLsb' 6 2) with
    | none => .error .illegalOperand
    | some w =>
      match eaMode ((wordAt bytes 0).extractLsb' 3 3) ((wordAt bytes 0).extractLsb' 0 3) with
      | none => .error .illegalOperand
      | some mode =>
        if mode.cmpiDestination = false then .error .illegalOperand
        else if bytes.length < 2 + 2 * AddrMode.immediate.ext w + 2 * mode.ext w then
          .error .malformed
        else .ok (Instr.cmpi w (immediateAt bytes 1 w)
          (operandOf mode ((wordAt bytes 0).extractLsb' 0 3) w bytes (1 + AddrMode.immediate.ext w)))

/-- `Decode`, the dispatcher (R170, R175): `CMPI` is probed first, then `CMP` (R174); any answer but
`NoMatch` is final. -/
def decode (bytes : List Byte) : Except Reject Instr :=
  match decodeCmpi bytes with
  | .ok i => .ok i
  | .error .illegalOperand => .error .illegalOperand
  | .error .malformed => .error .malformed
  | .error .noMatch => decodeCmp bytes

/-! ### Encode -/

/-- The extension words of an immediate of width `w` (R74, R160). -/
def immediateWords : (w : Width) → Value w → List Word
  | .byte, value => [(0#8 ++ value : BitVec 16)]
  | .word, value => [value]
  | .long, value => [value.extractLsb' 16 16, value.extractLsb' 0 16]

/-- `ExtWords(operand, w)` (R160). -/
def extWords {w : Width} : Operand w → List Word
  | .dataRegisterDirect _ => []
  | .addressRegisterDirect _ => []
  | .addressRegisterIndirect _ => []
  | .postincrement _ => []
  | .predecrement _ => []
  | .indirectWithDisplacement _ disp => [disp]
  | .absoluteShort addr16 => [addr16]
  | .absoluteLong addr32 => [addr32.extractLsb' 16 16, addr32.extractLsb' 0 16]
  | .programCounterDisplacement disp => [disp]
  | .immediate value => immediateWords w value

/-- The `reg` field of an operand: its own code, or its register index (R70). -/
def regField {w : Width} (op : Operand w) : BitVec 3 :=
  (regCode op.mode).getD (BitVec.ofNat 3 (op.register?.getD 0).val)

/-- The opcode word of format `CMP`: tag, `dreg`, `opmode`, `mode`, `reg` from bit 15 down (R62, R160). -/
def cmpOpcode {w : Width} (src : Operand w) (dn : Fin 8) : Word :=
  (tagCmp ++ BitVec.ofNat 3 dn.val ++ opmodeCode w ++ modeCode src.mode ++ regField src : BitVec 16)

/-- The opcode word of format `CMPI`: tag, `size`, `mode`, `reg` from bit 15 down (R63, R160). -/
def cmpiOpcode {w : Width} (dst : Operand w) : Word :=
  (tagCmpi ++ sizeCode w ++ modeCode dst.mode ++ regField dst : BitVec 16)

/-- The words of a `CMP` instruction: the opcode word, then those of the source (R75, R160). -/
def cmpWords {w : Width} (src : Operand w) (dn : Fin 8) : List Word :=
  cmpOpcode src dn :: extWords src

/-- The words of a `CMPI` instruction: the opcode word, the immediate, then those of the destination
(R75, R160). -/
def cmpiWords {w : Width} (value : Value w) (dst : Operand w) : List Word :=
  cmpiOpcode dst :: (immediateWords w value ++ extWords dst)

/-- The words of an instruction (R160). -/
def encodeWords : Instr → List Word
  | .cmpB src dn => cmpWords src dn
  | .cmpW src dn => cmpWords src dn
  | .cmpL src dn => cmpWords src dn
  | .cmpiB value dst => cmpiWords value dst
  | .cmpiW value dst => cmpiWords value dst
  | .cmpiL value dst => cmpiWords value dst

/-- Words as bytes, each most significant byte first (R61, R160). -/
def bytesOfWords : List Word → List Byte
  | [] => []
  | x :: xs => x.extractLsb' 8 8 :: x.extractLsb' 0 8 :: bytesOfWords xs

/-- `Encode` (R160): the bytes of a well-formed instruction. -/
def encode (i : Instr) : List Byte := bytesOfWords (encodeWords i)

/-! ### The opcode table's numbering of an instruction's bits -/

/-- The ten bytes of the longest instruction (R81) whose bits, as opcode_table.json numbers them, are the
low `nbits` of `w`: word `k` is bits `16k+15` to `16k`, stored most significant byte first (R61); the bits
above `nbits` are 0. -/
def tableBytes (nbits w : Nat) : List Byte :=
  bytesOfWords ((List.range 5).map fun k => BitVec.ofNat 16 (w % 2 ^ nbits / 2 ^ (16 * k)))

/-- The instruction the decoder reads from an instruction given as the opcode table numbers its bits. -/
def decodeTableWord (nbits w : Nat) : Option Instr :=
  match decode (tableBytes nbits w) with
  | .ok i => some i
  | .error _ => none

end Sys2Proof
end

