-- ==== Sys2Proof/Machine/State.lean ====
section
/-! DEFINITION. The state of the block, exactly the tuple of 10_state.md R34, and the ways a step can end without a next
state: 10_state.md R20 to R36, 60_exceptions.md R240. -/

namespace Sys2Proof.Machine

/-- The one flat byte-addressable memory (R33, R40). `size` is `MEM_SIZE`, the number of bytes that exist,
at addresses 0 to `size - 1`; `cells` lists the bytes that are not 0, addresses rising. A byte that is not
listed reads as 0 (log 2). -/
structure Memory where
  size : Nat
  cells : List Host.Cell
  deriving DecidableEq, Repr

/-- The canonical form of a memory: `1 <= MEM_SIZE <= 2^32` (R7), the listed addresses strictly rising and
below `MEM_SIZE`, and no listed byte equal to what an unlisted one reads as. -/
abbrev Memory.wf (m : Memory) : Prop :=
  1 ≤ m.size ∧ m.size ≤ Config.maxMemSize ∧
    m.cells.Pairwise (fun c c' => c.1 < c'.1) ∧ ∀ c ∈ m.cells, c.1 < m.size ∧ c.2 ≠ 0#8

/-- The state of the machine (R34): `D[0..7]`, `A[0..7]`, `pc`, the flags `N`, `Z`, `V`, `C`, `X`, and memory. -/
structure State where
  /-- The data registers `D[0]` to `D[7]` (R20). -/
  d : Vector Long 8
  /-- The address registers `A[0]` to `A[7]` (R23). -/
  a : Vector Long 8
  /-- The program counter (R26). -/
  pc : Long
  /-- Negative (R29). -/
  flagN : Bool
  /-- Zero (R29). -/
  flagZ : Bool
  /-- Overflow (R29). -/
  flagV : Bool
  /-- Carry (R29). -/
  flagC : Bool
  /-- Extend (R29). -/
  flagX : Bool
  /-- Memory (R33). -/
  mem : Memory
  deriving DecidableEq, Repr

/-- The outcomes of R240 other than `Ok`: how a function of the block ends without a result. A step that
ends so leaves the state as it was (R231, R250). -/
inductive Fault
  /-- Code 1. Raised by the decoder for a tag-matched opcode word with an illegal field (R77, R241) and by
  the write path for a literal or PC-relative destination (R135). Safe: the machine stops (log 17). -/
  | illegalOperand
  /-- Code 2. Raised by the decoder when no family owns the opcode word (R78, R242); the run ends (R233).
  Safe: the real processor would go on (log 16). -/
  | noMatch
  /-- Code 3. Raised by the decoder for an input too short for its instruction (R172, R243). Safe (log 16). -/
  | malformed
  /-- Code 5. Raised by a data access; `address` is the first byte address at or above `MEM_SIZE`
  (R42, R43, R245). Safe: nothing is changed (log 13). -/
  | accessFault (address : Long)
  /-- Code 6. Raised by the construction of a `SizedValue` of a width other than 1, 2 or 4 (R101, R246);
  never by a step. Safe. -/
  | badWidth
  /-- Code 7. Raised by arithmetic and comparison on `SizedValue`s of different widths (R106, R246); never by
  a step. Safe (log 19). -/
  | widthMismatch
  deriving DecidableEq, Repr

/-- An instruction the model gives no meaning. No arm of `exec` uses it: every instruction has its meaning. -/
inductive Refusal
  /-- Raised by an arm of `exec` that has no meaning yet. Safe: the machine stops. -/
  | notModelled (mnemonic : String)
  deriving DecidableEq, Repr

/-- The machine right after reset. The spec leaves all of it to `INIT_STATE` (R36, R270); these are the
values the model names: every register and flag zero (log 1), memory with nothing listed (log 2), of
`Config.resetMemSize` bytes (log 3). DESIGN CHOICE, unsafe for a claim about this one state. -/
def State.reset : State where
  d := Vector.replicate 8 0#32
  a := Vector.replicate 8 0#32
  pc := 0#32
  flagN := false
  flagZ := false
  flagV := false
  flagC := false
  flagX := false
  mem := { size := Config.resetMemSize, cells := [] }

end Sys2Proof.Machine
end

