-- ==== Sys2Proof/Machine/Ops.lean ====
section
/-! DEFINITION. The named operations over registers, the program counter and memory: 00_scope.md R11, 20_memory.md R40 to
R53, and the numeric codes of the outcomes, 60_exceptions.md R240. There is no exception to take and none to
return from (60_exceptions.md R251, R252). -/

namespace Sys2Proof.Machine

/-! ### Outcomes -/

/-- The numeric code of `Ok` (R240). -/
def okCode : Nat := 0

/-- The numeric code of an outcome other than `Ok` (R240); code 4 is unused. -/
def Fault.code : Fault → Nat
  | .illegalOperand => 1
  | .noMatch => 2
  | .malformed => 3
  | .accessFault _ => 5
  | .badWidth => 6
  | .widthMismatch => 7

/-- A decoder's answer as an outcome of the machine (R230). -/
def Fault.ofReject : Reject → Fault
  | .illegalOperand => .illegalOperand
  | .noMatch => .noMatch
  | .malformed => .malformed

/-- The numeric code of what a function of the block returns: `Ok` or another outcome (R240). -/
def resultCode {α : Type} : Except Fault α → Nat
  | .ok _ => okCode
  | .error f => f.code

/-- The numeric code of what a family's decoder or the dispatcher answers (R240, R241 to R243). -/
def decodeCode : Except Reject Instr → Nat
  | .ok _ => okCode
  | .error r => (Fault.ofReject r).code

/-- The numeric code of what `Execute` or `Step` answers: a next state is `Ok` (R230, R240). A refusal is no
outcome of the block and has no code. -/
def stepCode : Host.Outcome State Fault Refusal → Option Nat
  | .next _ => some okCode
  | .fault f => some f.code
  | .refused _ => none

/-! ### Registers and the program counter -/

/-- `D[n]` (R11). -/
def State.getD (s : State) (n : Fin 8) : Long := s.d[n]

/-- `D[n] <- v` (R11). -/
def State.setD (s : State) (n : Fin 8) (v : Long) : State := { s with d := s.d.set n v }

/-- `A[n]` (R11). -/
def State.getA (s : State) (n : Fin 8) : Long := s.a[n]

/-- `A[n] <- v` (R11). -/
def State.setA (s : State) (n : Fin 8) (v : Long) : State := { s with a := s.a.set n v }

/-- `v[8w-1:0]`: a register read at width `w` (R22). -/
def narrow (w : Width) (v : Long) : Value w := v.setWidth w.bits

/-- `v[31:8w] ++ x`: a register written at width `w`, the upper bytes kept (R135). -/
def replaceLow {w : Width} (v : Long) (x : Value w) : Long :=
  BitVec.ofNat 32 (v.toNat / 2 ^ w.bits * 2 ^ w.bits + x.toNat)

/-- `pc <- mask_4(pc + 2 * L)` for an instruction of `L` words (R26, R27). -/
def State.advance (s : State) (words : Nat) : State :=
  { s with pc := s.pc + BitVec.ofNat 32 (2 * words) }

/-! ### One byte of memory -/

/-- The byte a list of cells gives an address, 0 where it lists none (log 2). -/
def lookupCell : List Host.Cell → Nat → Byte
  | [], _ => 0#8
  | (k, b) :: rest, a => if k = a then b else lookupCell rest a

/-- Puts a byte at an address, keeping the addresses rising and listing no 0. -/
def storeCell : List Host.Cell → Nat → Byte → List Host.Cell
  | [], a, b => if b = 0#8 then [] else [(a, b)]
  | (k, x) :: rest, a, b =>
    if a < k then (if b = 0#8 then (k, x) :: rest else (a, b) :: (k, x) :: rest)
    else if a = k then (if b = 0#8 then rest else (a, b) :: rest)
    else (k, x) :: storeCell rest a b

/-- `mem[a]`: one byte. The callers check `a < MEM_SIZE`. -/
def Memory.byteAt (m : Memory) (a : Nat) : Byte := lookupCell m.cells a

/-- `mem[a] <- b`: one byte; there is no byte at or above `MEM_SIZE` to store to. -/
def Memory.setByte (m : Memory) (a : Nat) (b : Byte) : Memory :=
  if a < m.size then { m with cells := storeCell m.cells a b } else m

/-! ### MemRead and MemWrite -/

/-- The `n` byte addresses of an access at `addr`, wrapping modulo 2^32 (R42). -/
def accessAddresses (addr : Long) (n : Nat) : List Long :=
  (List.range n).map fun i => addr + BitVec.ofNat 32 i

/-- The first address of a list that is at or above `MEM_SIZE` (R42, R43, R247). -/
def Memory.firstOutside (m : Memory) (as : List Long) : Option Long :=
  as.find? fun a => decide (m.size ≤ a.toNat)

/-- Bytes as a number, the first in the most significant place (R41, R42). -/
def bigEndian (bytes : List Byte) : Nat :=
  bytes.foldl (fun acc b => acc * 256 + b.toNat) 0

/-- `MemRead(addr, n)` for `n` the bytes of `w` (R42): big-endian, `AccessFault` of the first byte address
outside the memory. It changes nothing. -/
def Memory.read (m : Memory) (w : Width) (addr : Long) : Except Fault (Value w) :=
  match m.firstOutside (accessAddresses addr w.bytes) with
  | some a => .error (.accessFault a)
  | none => .ok (BitVec.ofNat w.bits
      (bigEndian ((accessAddresses addr w.bytes).map fun a => m.byteAt a.toNat)))

/-- The bytes of a value of width `w`, most significant first (R41, R43). -/
def valueBytes {w : Width} (v : Value w) : List Byte :=
  (List.range w.bytes).map fun i => BitVec.ofNat 8 (v.toNat / 256 ^ (w.bytes - 1 - i))

/-- Stores one byte after another, each at its address. -/
def Memory.setBytes (m : Memory) : List (Long × Byte) → Memory
  | [] => m
  | (a, b) :: rest => (m.setByte a.toNat b).setBytes rest

/-- `MemWrite(addr, n, v)` (R43): every address is checked before any byte is stored; the most significant
byte goes to the lowest address. -/
def Memory.write {w : Width} (m : Memory) (addr : Long) (v : Value w) : Except Fault Memory :=
  match m.firstOutside (accessAddresses addr w.bytes) with
  | some a => .error (.accessFault a)
  | none => .ok (m.setBytes ((accessAddresses addr w.bytes).zip (valueBytes v)))

/-! ### Instruction fetch -/

/-- The fetch window at `pc`: the bytes from `pc` up to `min(pc + 9, MEM_SIZE - 1)`, without wrap-around
(R53). -/
def State.fetchWindow (s : State) : List Byte :=
  (List.range (min 10 (s.mem.size - s.pc.toNat))).map fun k => s.mem.byteAt (s.pc.toNat + k)

/-- Puts bytes at consecutive addresses from `a` up; bytes that would lie past the memory's end are
dropped. -/
def Memory.putBytes (m : Memory) (a : Nat) : List Byte → Memory
  | [] => m
  | b :: rest => (m.setByte a b).putBytes (a + 1) rest

end Sys2Proof.Machine
end

