-- ==== Sys2Proof/Machine/Flags.lean ====
section
/-! DEFINITION. The condition-flag generator: 43_flag_generator.md R190 to R199. -/

namespace Sys2Proof.Machine

/-- The four outputs of the flag generator; it has no `X` output (R190, R195). -/
structure Flags where
  n : Bool
  z : Bool
  v : Bool
  c : Bool
  deriving DecidableEq, Repr

/-- `SubFlags(w, s, d)` (R190): the flags of the masked difference `r = d - s`. `V` is the two's-complement
rule (R193, 90_conflicts.md C1), `N` the sign of the masked difference (R191, C2). -/
def subFlags {w : Width} (src dst : Value w) : Flags where
  n := (dst - src).msb
  z := decide (dst - src = 0#w.bits)
  v := (src.msb != dst.msb) && ((dst - src).msb != dst.msb)
  c := decide (dst.toNat < src.toNat)

/-- Writes `N`, `Z`, `V` and `C`; `X` keeps its value (R30, R195). -/
def State.writeFlags (s : State) (f : Flags) : State :=
  { s with flagN := f.n, flagZ := f.z, flagV := f.v, flagC := f.c }

end Sys2Proof.Machine
end

