-- ==== Sys2Proof/Machine/Operands.lean ====
section
/-! DEFINITION. The addressing-mode resolver, every operand form: 41_operand_resolution.md R120 to R138. -/

namespace Sys2Proof.Machine

/-- `SP_INDEX`, the address register that is the stack pointer (R7, R25). Log 7, PRESUMED. -/
def spIndex : Fin 8 := 7

/-- `PCREL_BASE`, what is added to the address of the opcode word to form the base of a
program-counter-relative address (R7, R131). Log 8, DESIGN CHOICE of the spec. -/
def pcrelBase : Long := 0#32

/-- `inc(n, w)`, the step of an auto-increment or auto-decrement: 2 for the stack pointer at byte width,
otherwise the width (R125). -/
def autoStep (n : Fin 8) (w : Width) : Long :=
  if n = spIndex ∧ w = .byte then 2#32 else BitVec.ofNat 32 w.bytes

/-- The 32-bit address of `AbsoluteShort(addr16)`: `addr16` itself below 0x8000, and above it whichever
widening `ABS_SHORT_EXT` names (R129, log 4). -/
def absShortAddress (addr16 : Word) : Long :=
  if addr16.msb then
    match Config.absShortExt with
    | .zero => addr16.setWidth 32
    | .sign => addr16.signExtend 32
  else addr16.setWidth 32

/-- What an operand points at: a register, a literal, or the bytes at an effective address, with the state
that its register side effect leaves (R137, R273). -/
inductive Place (w : Width)
  | dataRegister (n : Fin 8)
  | addressRegister (n : Fin 8)
  | literal (value : Value w)
  | memory (ea : Long) (after : State)
  deriving DecidableEq, Repr

/-- Where an operand points: the effective addresses and register side effects of R122 to R132, all sums
modulo 2^32. -/
def locate {w : Width} (op : Operand w) (s : State) : Place w :=
  match op with
  | .dataRegisterDirect n => .dataRegister n
  | .addressRegisterDirect n => .addressRegister n
  | .addressRegisterIndirect n => .memory (s.getA n) s
  | .postincrement n => .memory (s.getA n) (s.setA n (s.getA n + autoStep n w))
  | .predecrement n => .memory (s.getA n - autoStep n w) (s.setA n (s.getA n - autoStep n w))
  | .indirectWithDisplacement n disp => .memory (s.getA n + disp.signExtend 32) s
  | .absoluteShort addr16 => .memory (absShortAddress addr16) s
  | .absoluteLong addr32 => .memory addr32 s
  | .programCounterDisplacement disp => .memory (s.pc + pcrelBase + disp.signExtend 32) s
  | .immediate value => .literal value

/-- `Resolve(op, S, w)` (R121 to R134): the value of an operand and the state afterwards. On `AccessFault`
there is no new state, so nothing is changed (R136). -/
def resolve {w : Width} (op : Operand w) (s : State) : Except Fault (Value w × State) :=
  match locate op s with
  | .dataRegister n => .ok (narrow w (s.getD n), s)
  | .addressRegister n => .ok (narrow w (s.getA n), s)
  | .literal value => .ok (value, s)
  | .memory ea after =>
    match s.mem.read w ea with
    | .error f => .error f
    | .ok v => .ok (v, after)

/-- Stores through a place: a register's low bytes, or memory at the effective address with the same
register side effect as a read; a literal cannot be written (R135). -/
def writePlace {w : Width} (place : Place w) (s : State) (v : Value w) : Except Fault State :=
  match place with
  | .dataRegister n => .ok (s.setD n (replaceLow (s.getD n) v))
  | .addressRegister n => .ok (s.setA n (replaceLow (s.getA n) v))
  | .literal _ => .error .illegalOperand
  | .memory ea after =>
    match s.mem.write ea v with
    | .error f => .error f
    | .ok m => .ok { after with mem := m }

/-- `ResolveWrite(op, S, w, v)` (R135). No instruction calls it; no instruction writes through the
program-counter-relative mode, so that is refused. -/
def resolveWrite {w : Width} (op : Operand w) (s : State) (v : Value w) : Except Fault State :=
  match op.mode with
  | .programCounterDisplacement => .error .illegalOperand
  | .dataRegisterDirect => writePlace (locate op s) s v
  | .addressRegisterDirect => writePlace (locate op s) s v
  | .addressRegisterIndirect => writePlace (locate op s) s v
  | .postincrement => writePlace (locate op s) s v
  | .predecrement => writePlace (locate op s) s v
  | .indirectWithDisplacement => writePlace (locate op s) s v
  | .absoluteShort => writePlace (locate op s) s v
  | .absoluteLong => writePlace (locate op s) s v
  | .immediate => writePlace (locate op s) s v

end Sys2Proof.Machine
end

