-- ==== Sys2Proof/Machine/Compare.lean ====
section
/-! DEFINITION. What both compares do, once: 44_cmp.md R211, 45_cmpi.md R221, 43_flag_generator.md R196. -/

namespace Sys2Proof.Machine

/-- Reads the source, then the destination in the state the source left (R134), sets `N`, `Z`, `V`, `C`
from `destination - source`, and last advances `pc` by the length of the instruction (R211, R221). An
`AccessFault` of either operand is the whole outcome (R214, R224, R250). -/
def compareOperands {w : Width} (src dst : Operand w) (s : State) : Host.Outcome State Fault Refusal :=
  match resolve src s with
  | .error f => .fault f
  | .ok (sv, s1) =>
    match resolve dst s1 with
    | .error f => .fault f
    | .ok (dv, s2) => .next ((s2.writeFlags (subFlags sv dv)).advance (lengthWords src dst))

end Sys2Proof.Machine
end

