-- ==== Sys2Proof/Machine/Cmp.lean ====
section
/-! DEFINITION. The compare-registers family: 44_cmp.md R210 to R216. -/

namespace Sys2Proof.Machine

/-- `CMP.B src,Dn` (R211 at `w` = 1). -/
def execCmpB (src : Operand .byte) (dn : Fin 8) (s : State) : Host.Outcome State Fault Refusal :=
  compareOperands src (.dataRegisterDirect dn) s

/-- `CMP.W src,Dn` (R211 at `w` = 2). -/
def execCmpW (src : Operand .word) (dn : Fin 8) (s : State) : Host.Outcome State Fault Refusal :=
  compareOperands src (.dataRegisterDirect dn) s

/-- `CMP.L src,Dn` (R211 at `w` = 4). -/
def execCmpL (src : Operand .long) (dn : Fin 8) (s : State) : Host.Outcome State Fault Refusal :=
  compareOperands src (.dataRegisterDirect dn) s

end Sys2Proof.Machine
end

