-- ==== Sys2Proof/Machine/Cmpi.lean ====
section
/-! DEFINITION. The compare-immediate family: 45_cmpi.md R220 to R226. -/

namespace Sys2Proof.Machine

/-- `CMPI.B #value,dst` (R221 at `w` = 1). -/
def execCmpiB (value : Value .byte) (dst : Operand .byte) (s : State) :
    Host.Outcome State Fault Refusal :=
  compareOperands (.immediate value) dst s

/-- `CMPI.W #value,dst` (R221 at `w` = 2). -/
def execCmpiW (value : Value .word) (dst : Operand .word) (s : State) :
    Host.Outcome State Fault Refusal :=
  compareOperands (.immediate value) dst s

/-- `CMPI.L #value,dst` (R221 at `w` = 4). -/
def execCmpiL (value : Value .long) (dst : Operand .long) (s : State) :
    Host.Outcome State Fault Refusal :=
  compareOperands (.immediate value) dst s

end Sys2Proof.Machine
end

