-- ==== Sys2Proof/Machine/Dispatch.lean ====
section
/-! DEFINITION. `Execute`: one arm per instruction (46_step.md R230). -/

namespace Sys2Proof.Machine

def exec (i : Instr) (s : State) : Host.Outcome State Fault Refusal :=
  match i with
  | .cmpB src dn => Sys2Proof.Machine.execCmpB src dn s
  | .cmpW src dn => Sys2Proof.Machine.execCmpW src dn s
  | .cmpL src dn => Sys2Proof.Machine.execCmpL src dn s
  | .cmpiB value dst => Sys2Proof.Machine.execCmpiB value dst s
  | .cmpiW value dst => Sys2Proof.Machine.execCmpiW value dst s
  | .cmpiL value dst => Sys2Proof.Machine.execCmpiL value dst s

end Sys2Proof.Machine
end

