-- ==== Sys2Proof/Machine/Step.lean ====
section
/-! DEFINITION. The step: fetch, decode, execute (46_step.md R230). -/

namespace Sys2Proof.Machine

/-- `Step(S)` (R230): decode the fetch window at `pc` and execute. A stop carries no state: the state is
`S` itself, unchanged (R231). -/
def step (s : State) : Host.Outcome State Fault Refusal :=
  match decode s.fetchWindow with
  | .error r => .fault (Fault.ofReject r)
  | .ok i => exec i s

/-- `s` with the instruction whose bits are `w`, as the opcode table numbers them, placed in memory at `pc`,
where `step` fetches; it stands for the host's load (R236, R271; log 25). -/
def State.withFetchWord (s : State) (nbits w : Nat) : State :=
  { s with mem := s.mem.putBytes s.pc.toNat (tableBytes nbits w) }

end Sys2Proof.Machine
end

