-- ==== Sys2Proof/Machine/SizedValue.lean ====
section
/-! DEFINITION. The fixed-width value type: 40_sized_value.md R100 to R108. The data path works on `Value w`, the raw bits
of a known width; a `SizedValue` pairs them with their width, which is where a width can be wrong or two widths
can differ. -/

namespace Sys2Proof.Machine

/-- A `SizedValue`, the pair (`w`, `raw`) (R100). -/
structure SizedValue where
  width : Width
  raw : Value width
  deriving DecidableEq, Repr

/-- `FromSigned(w, m)` for any integer `m` (R101): reduced modulo 2^(8w); `BadWidth` for a width tag other
than 1, 2 or 4. -/
def SizedValue.fromSigned (tag : Nat) (m : Int) : Except Fault SizedValue :=
  match Width.ofBytes? tag with
  | none => .error .badWidth
  | some w => .ok ⟨w, BitVec.ofInt w.bits m⟩

/-- `FromUnsigned(w, m)` for a non-negative integer `m` (R101). -/
def SizedValue.fromUnsigned (tag : Nat) (m : Nat) : Except Fault SizedValue :=
  match Width.ofBytes? tag with
  | none => .error .badWidth
  | some w => .ok ⟨w, BitVec.ofNat w.bits m⟩

/-- `unsigned(x)` (R102). -/
def SizedValue.unsigned (x : SizedValue) : Nat := x.raw.toNat

/-- `signed(x)` (R102). -/
def SizedValue.signed (x : SizedValue) : Int := x.raw.toInt

/-- `sign(x)`, bit `8w-1` (R102). -/
def SizedValue.sign (x : SizedValue) : Bool := x.raw.msb

/-- `Add(x, y)` (R103), rejecting mixed widths (R106). -/
def SizedValue.add (x y : SizedValue) : Except Fault SizedValue :=
  if x.width = y.width then .ok ⟨x.width, x.raw + y.raw.setWidth x.width.bits⟩
  else .error .widthMismatch

/-- `Sub(x, y)` (R103), rejecting mixed widths (R106). -/
def SizedValue.sub (x y : SizedValue) : Except Fault SizedValue :=
  if x.width = y.width then .ok ⟨x.width, x.raw - y.raw.setWidth x.width.bits⟩
  else .error .widthMismatch

/-- `Eq(x, y)` (R104), rejecting mixed widths (R106). -/
def SizedValue.eq (x y : SizedValue) : Except Fault Bool :=
  if x.width = y.width then .ok (decide (x.unsigned = y.unsigned)) else .error .widthMismatch

/-- `LtU(x, y)` (R104), rejecting mixed widths (R106). -/
def SizedValue.ltU (x y : SizedValue) : Except Fault Bool :=
  if x.width = y.width then .ok (decide (x.unsigned < y.unsigned)) else .error .widthMismatch

/-- `LtS(x, y)` (R104), rejecting mixed widths (R106). -/
def SizedValue.ltS (x y : SizedValue) : Except Fault Bool :=
  if x.width = y.width then .ok (decide (x.signed < y.signed)) else .error .widthMismatch

/-- `Mask(x, w')` for `w' <= w` (R105): the low-order `w'` bytes. Widening is never done this way, so a
wider `w'` has no result. -/
def SizedValue.mask (x : SizedValue) (w' : Width) : Option SizedValue :=
  if w'.bytes ≤ x.width.bytes then some ⟨w', x.raw.setWidth w'.bits⟩ else none

end Sys2Proof.Machine
end

