-- ==== Sys2Proof/Machine/Contract.lean ====
section
/-! DEFINITION. The other functions every instruction variant exposes: `Construct`, `Matches`, text dispatch and
`StaticWordLength` (42_decoder_dispatch.md R150 to R158). They touch no state (46_step.md R236). -/

namespace Sys2Proof.Machine

/-! ### Construct -/

/-- The typed operand of an outside record at width `w`: its payload ranges checked, an immediate reduced
modulo 2^(8w) (R151, R152). -/
def operandOfRecord (w : Width) : OperandRecord → Option (Operand w)
  | .dataRegisterDirect n => if h : n < 8 then some (.dataRegisterDirect ⟨n, h⟩) else none
  | .addressRegisterDirect n => if h : n < 8 then some (.addressRegisterDirect ⟨n, h⟩) else none
  | .addressRegisterIndirect n => if h : n < 8 then some (.addressRegisterIndirect ⟨n, h⟩) else none
  | .postincrement n => if h : n < 8 then some (.postincrement ⟨n, h⟩) else none
  | .predecrement n => if h : n < 8 then some (.predecrement ⟨n, h⟩) else none
  | .indirectWithDisplacement n disp =>
    if h : n < 8 then
      if -32768 ≤ disp ∧ disp ≤ 32767 then
        some (.indirectWithDisplacement ⟨n, h⟩ (BitVec.ofInt 16 disp))
      else none
    else none
  | .absoluteShort addr => if addr < 65536 then some (.absoluteShort (BitVec.ofNat 16 addr)) else none
  | .absoluteLong addr =>
    if addr < 4294967296 then some (.absoluteLong (BitVec.ofNat 32 addr)) else none
  | .programCounterDisplacement disp =>
    if -32768 ≤ disp ∧ disp ≤ 32767 then
      some (.programCounterDisplacement (BitVec.ofInt 16 disp))
    else none
  | .immediate value => some (.immediate (BitVec.ofInt w.bits value))

/-- A typed operand as an outside record (R120). -/
def recordOfOperand {w : Width} : Operand w → OperandRecord
  | .dataRegisterDirect n => .dataRegisterDirect n.val
  | .addressRegisterDirect n => .addressRegisterDirect n.val
  | .addressRegisterIndirect n => .addressRegisterIndirect n.val
  | .postincrement n => .postincrement n.val
  | .predecrement n => .predecrement n.val
  | .indirectWithDisplacement n disp => .indirectWithDisplacement n.val disp.toInt
  | .absoluteShort addr16 => .absoluteShort addr16.toNat
  | .absoluteLong addr32 => .absoluteLong addr32.toNat
  | .programCounterDisplacement disp => .programCounterDisplacement disp.toInt
  | .immediate value => .immediate value.toNat

/-- Position legality of `CMP` (R151): any source, a data register as destination. -/
def placeCmp {w : Width} (src dst : Operand w) : Option Instr :=
  match dst with
  | .dataRegisterDirect dn => some (Instr.cmp w src dn)
  | .addressRegisterDirect _ => none
  | .addressRegisterIndirect _ => none
  | .postincrement _ => none
  | .predecrement _ => none
  | .indirectWithDisplacement _ _ => none
  | .absoluteShort _ => none
  | .absoluteLong _ => none
  | .programCounterDisplacement _ => none
  | .immediate _ => none

/-- Position legality of `CMPI` (R151): an immediate source, a destination that is neither an address
register nor an immediate. -/
def placeCmpi {w : Width} (src dst : Operand w) : Option Instr :=
  match src with
  | .immediate value => if dst.mode.cmpiDestination then some (Instr.cmpi w value dst) else none
  | .dataRegisterDirect _ => none
  | .addressRegisterDirect _ => none
  | .addressRegisterIndirect _ => none
  | .postincrement _ => none
  | .predecrement _ => none
  | .indirectWithDisplacement _ _ => none
  | .absoluteShort _ => none
  | .absoluteLong _ => none
  | .programCounterDisplacement _ => none

/-- Position legality of a family (R151). -/
def placeOperands {w : Width} (family : Family) (src dst : Operand w) : Option Instr :=
  match family with
  | .cmp => placeCmp src dst
  | .cmpi => placeCmpi src dst

/-- The checks of R151, all of which must pass. -/
def construct? (family : Family) (operands : List OperandRecord) (widthTag : Nat) : Option Instr := do
  let w ← Width.ofBytes? widthTag
  match operands with
  | [src, dst] => placeOperands family (← operandOfRecord w src) (← operandOfRecord w dst)
  | [] => none
  | [_] => none
  | _ :: _ :: _ :: _ => none

/-- `Construct(family, operands, w)` (R151): an instruction, or `IllegalOperand` on any violation. -/
def construct (family : Family) (operands : List OperandRecord) (widthTag : Nat) :
    Except Fault Instr :=
  match construct? family operands widthTag with
  | some i => .ok i
  | none => .error .illegalOperand

/-- The operand records of an instruction, in the order `Construct` takes them (R150). -/
def recordsOf (i : Instr) : List OperandRecord := [recordOfOperand i.src, recordOfOperand i.dst]

/-! ### Text -/

/-- Assembly text as the block receives it: upper-case characters (R94, R155; log 21). -/
abbrev Text := List Char

/-- The width a size suffix letter names (R93). -/
def suffixLetter (c : Char) : Option Width :=
  if c = 'B' then some .byte
  else if c = 'W' then some .word
  else if c = 'L' then some .long
  else none

/-- The width the size suffix of a mnemonic names, if it has one (R93, R157). -/
def suffixWidth (t : Text) : Option Width :=
  match t.reverse with
  | c :: '.' :: _ => suffixLetter c
  | _ => none

/-- A mnemonic with one trailing size suffix removed if present (R155). -/
def stripSuffix (t : Text) : Text :=
  match suffixWidth t with
  | some _ => t.take (t.length - 2)
  | none => t

/-- The mnemonic of a family (R91). -/
def mnemonicText : Family → Text
  | .cmp => ['C', 'M', 'P']
  | .cmpi => ['C', 'M', 'P', 'I']

/-- `Matches(family, mnemonic_text)` (R155): whole strings are compared. -/
def matchesText (family : Family) (t : Text) : Bool := decide (stripSuffix t = mnemonicText family)

/-- Text-recognition dispatch (R156): `CMPI` is probed first, then `CMP`. -/
def textDispatch (t : Text) : Option Family :=
  [Family.cmpi, Family.cmp].find? fun f => matchesText f t

/-! ### Static length -/

/-- `L` from the width and the operands' modes alone (R80, R157). -/
def staticLength (w : Width) (src dst : AddrMode) : Nat := 1 + src.ext w + dst.ext w

/-- `StaticWordLength` (R157): the width is the one the mnemonic's suffix names, the modes are those of the
operands the external parser makes; the family does not enter the formula. A mnemonic without a suffix
names no width, and the parser's default for it is not the block's (R93). -/
def staticWordLength (t : Text) (src dst : AddrMode) : Option Nat :=
  match suffixWidth t with
  | some w => some (staticLength w src dst)
  | none => none

end Sys2Proof.Machine
end

