-- ==== Sys2Proof/Machine/HostAction.lean ====
section
/-! DEFINITION. What the host may write, before the first step and between two steps, never during one: 46_step.md R236. -/

namespace Sys2Proof.Machine

/-- One write of the host (R236). -/
inductive HostAction
  | writeD (n : Fin 8) (v : Long)
  | writeA (n : Fin 8) (v : Long)
  | writePc (v : Long)
  | writeN (b : Bool)
  | writeZ (b : Bool)
  | writeV (b : Bool)
  | writeC (b : Bool)
  | writeX (b : Bool)
  | writeByte (address : Nat) (b : Byte)
  deriving DecidableEq, Repr

/-- The state the next step sees after a write of the host (R236, R51). There is no byte at or above
`MEM_SIZE` to write. -/
def HostAction.apply (s : State) : HostAction → State
  | .writeD n v => s.setD n v
  | .writeA n v => s.setA n v
  | .writePc v => { s with pc := v }
  | .writeN b => { s with flagN := b }
  | .writeZ b => { s with flagZ := b }
  | .writeV b => { s with flagV := b }
  | .writeC b => { s with flagC := b }
  | .writeX b => { s with flagX := b }
  | .writeByte address b => { s with mem := s.mem.setByte address b }

end Sys2Proof.Machine
end

