-- ==== Sys2Proof/Safety.lean ====
section
/-! DEFINITION. The terms claims are stated in: readable operands, what the host sees after a step, runs, the invariant
(46_step.md R231 to R233) and the payload ranges of Construct (42_decoder_dispatch.md R151). -/

namespace Sys2Proof.Machine

/-- Every one of the `n` bytes of an access at `addr` exists: its address, modulo 2^32, is below `MEM_SIZE`
(R42). -/
abbrev Memory.accessible (m : Memory) (addr : Long) (n : Nat) : Prop :=
  ∀ i < n, (addr + BitVec.ofNat 32 i).toNat < m.size

/-- Byte `i` of an access of `n` bytes at `addr` is the first one outside the memory (R42, R247). -/
abbrev Memory.firstMissing (m : Memory) (addr : Long) (n i : Nat) : Prop :=
  i < n ∧ m.size ≤ (addr + BitVec.ofNat 32 i).toNat ∧ m.accessible addr i

/-- The operand needs no byte of memory that does not exist: it is no memory operand, or all the bytes at its
effective address exist (R136). -/
def readable {w : Width} (op : Operand w) (s : State) : Bool :=
  match locate op s with
  | .dataRegister _ => true
  | .addressRegister _ => true
  | .literal _ => true
  | .memory ea _ => decide (s.mem.accessible ea w.bytes)

/-- The state the host finds after an outcome: the next state, or the state as it was (R231, R250). -/
def State.after (s : State) : Host.Outcome State Fault Refusal → State
  | .next t => t
  | .fault _ => s
  | .refused _ => s

/-- The invariant of the machine: its memory keeps the canonical form. -/
abbrev State.Inv (s : State) : Prop := s.mem.wf

/-- The state after `k` steps that all answer a next state, if they do (R232). -/
def stepsTo : Nat → State → Option State
  | 0, s => some s
  | k + 1, s =>
    match step s with
    | .next t => stepsTo k t
    | .fault _ => none
    | .refused _ => none

/-- A run ends here: the step answers a stop (R233). -/
def Stopped (s : State) : Prop := ∃ f, step s = .fault f

/-- The address register an operand's resolution steps: that of a postincrement or predecrement operand, and
no other (R24). -/
def stepped {w : Width} : Operand w → Option (Fin 8)
  | .dataRegisterDirect _ => none
  | .addressRegisterDirect _ => none
  | .addressRegisterIndirect _ => none
  | .postincrement n => some n
  | .predecrement n => some n
  | .indirectWithDisplacement _ _ => none
  | .absoluteShort _ => none
  | .absoluteLong _ => none
  | .programCounterDisplacement _ => none
  | .immediate _ => none

/-- The tag of an outside operand record (R120). -/
def recordMode : OperandRecord → AddrMode
  | .dataRegisterDirect _ => .dataRegisterDirect
  | .addressRegisterDirect _ => .addressRegisterDirect
  | .addressRegisterIndirect _ => .addressRegisterIndirect
  | .postincrement _ => .postincrement
  | .predecrement _ => .predecrement
  | .indirectWithDisplacement _ _ => .indirectWithDisplacement
  | .absoluteShort _ => .absoluteShort
  | .absoluteLong _ => .absoluteLong
  | .programCounterDisplacement _ => .programCounterDisplacement
  | .immediate _ => .immediate

/-- The payload ranges of R151: an immediate may be any integer (R152). -/
def recordInRange : OperandRecord → Prop
  | .dataRegisterDirect n => n ≤ 7
  | .addressRegisterDirect n => n ≤ 7
  | .addressRegisterIndirect n => n ≤ 7
  | .postincrement n => n ≤ 7
  | .predecrement n => n ≤ 7
  | .indirectWithDisplacement n disp => n ≤ 7 ∧ -32768 ≤ disp ∧ disp ≤ 32767
  | .absoluteShort addr => addr < 2 ^ 16
  | .absoluteLong addr => addr < 2 ^ 32
  | .programCounterDisplacement disp => -32768 ≤ disp ∧ disp ≤ 32767
  | .immediate _ => True

end Sys2Proof.Machine
end

