-- ==== Sys2Proof/Certificates/Slice0/Obligations.lean ====
section
/-! DEFINITION. The statements for the provers. A docstring names the rule a statement formalises; where a statement
rests on a decision the spec marks as its own, or on a value the model chose, it names that decision or the
entry of the assumption log. -/

open Sys2Proof Sys2Proof.Machine

/-! ### Registers and the resolver -/

/-- R22, R122: `Dn` read at width `w` gives the low-order `w` bytes, changes nothing and cannot fail; the same
holds of `An` (R22, last sentence). -/
def Obligations.RegisterDirectReadsLowBytes : Prop :=
  ∀ (w : Width) (n : Fin 8) (s : State),
    (∃ v, resolve (.dataRegisterDirect n : Operand w) s = .ok (v, s) ∧
      v.toNat = s.d[n].toNat % 2 ^ (8 * w.bytes)) ∧
    (∃ v, resolve (.addressRegisterDirect n : Operand w) s = .ok (v, s) ∧
      v.toNat = s.a[n].toNat % 2 ^ (8 * w.bytes))

/-- R124, R128, R130: the indirect, displacement and absolute-long modes read memory at `A[n]`, at
`A[n] + disp` modulo 2^32 with the displacement signed, and at `addr32`; they write no state and fail only as
the read does. -/
def Obligations.PlainMemoryModesReadAtTheirAddress : Prop :=
  ∀ (w : Width) (s : State) (op : Operand w) (ea : Long),
    ((∃ n, op = .addressRegisterIndirect n ∧ ea = s.a[n]) ∨
     (∃ n disp, op = .indirectWithDisplacement n disp ∧
       ea = BitVec.ofInt 32 (s.a[n].toNat + disp.toInt)) ∨
     op = .absoluteLong ea) →
    (∀ v, s.mem.read w ea = .ok v → resolve op s = .ok (v, s)) ∧
    (∀ f, s.mem.read w ea = .error f → resolve op s = .error f)

/-- R132: an immediate gives its literal in every state, whatever memory holds, and changes nothing. -/
def Obligations.ImmediateNeedsNoMemory : Prop :=
  ∀ (w : Width) (value : Value w) (s : State),
    resolve (.immediate value : Operand w) s = .ok (value, s)

/-- A short absolute address below 0x8000 is the address; above it the address is whichever widening
`ABS_SHORT_EXT` names, and this holds for both (decision D10, log 4: the parameter stays open). -/
def Obligations.AbsoluteShortWidensByTheOpenParameter : Prop :=
  ∀ (w : Width) (addr16 : Word) (s : State) (ea : Nat),
    (addr16.toNat < 0x8000 → ea = addr16.toNat) →
    (0x8000 ≤ addr16.toNat → Config.absShortExt = .zero → ea = addr16.toNat) →
    (0x8000 ≤ addr16.toNat → Config.absShortExt = .sign → ea = addr16.toNat + 0xFFFF0000) →
    (∀ v, s.mem.read w (BitVec.ofNat 32 ea) = .ok v → resolve (.absoluteShort addr16) s = .ok (v, s)) ∧
    (∀ f, s.mem.read w (BitVec.ofNat 32 ea) = .error f →
      resolve (.absoluteShort addr16 : Operand w) s = .error f)

/-- The base of a program-counter-relative address is the address of the instruction's own opcode word
(decision D11, log 8: `PCREL_BASE = 0`). -/
def Obligations.PcRelativeReadsFromTheOpcodeWord : Prop :=
  ∀ (w : Width) (disp : Word) (s : State) (ea : Long),
    ea = BitVec.ofInt 32 (s.pc.toNat + disp.toInt) →
    (∀ v, s.mem.read w ea = .ok v → resolve (.programCounterDisplacement disp) s = .ok (v, s)) ∧
    (∀ f, s.mem.read w ea = .error f →
      resolve (.programCounterDisplacement disp : Operand w) s = .error f)

/-- Postincrement reads at the old address and then adds the step; predecrement subtracts and reads at the
new address; the step is the width, but 2 for `A7` at byte width; a failed access moves nothing. The order is
decision D13 (log 11), `A7` is decision D12 (log 7). -/
def Obligations.AutoModesStepTheRegister : Prop :=
  ∀ (w : Width) (n : Fin 8) (s : State) (step : Long),
    step.toNat = (if n = 7 ∧ w = .byte then 2 else w.bytes) →
    ((∀ v, s.mem.read w s.a[n] = .ok v →
        resolve (.postincrement n) s = .ok (v, { s with a := s.a.set n (s.a[n] + step) })) ∧
     (∀ f, s.mem.read w s.a[n] = .error f → resolve (.postincrement n : Operand w) s = .error f)) ∧
    ((∀ v, s.mem.read w (s.a[n] - step) = .ok v →
        resolve (.predecrement n) s = .ok (v, { s with a := s.a.set n (s.a[n] - step) })) ∧
     (∀ f, s.mem.read w (s.a[n] - step) = .error f →
        resolve (.predecrement n : Operand w) s = .error f))

/-- R121: a resolution answers a value and a state, or `AccessFault`; the state equals the one before but for
`A[n]` under postincrement and predecrement. -/
def Obligations.ResolveChangesOnlyTheSteppedRegister : Prop :=
  ∀ (w : Width) (op : Operand w) (s : State),
    (∃ v s', resolve op s = .ok (v, s') ∧
      ((∃ n, op = .postincrement n ∧ s' = { s with a := s.a.set n (s.a[n] + autoStep n w) }) ∨
       (∃ n, op = .predecrement n ∧ s' = { s with a := s.a.set n (s.a[n] - autoStep n w) }) ∨
       ((∀ n, op ≠ .postincrement n) ∧ (∀ n, op ≠ .predecrement n) ∧ s' = s))) ∨
    (∃ a, resolve op s = .error (.accessFault a))

/-- R133: a call of the resolver applies the side effect once and two calls apply it twice, so two
postincrements or two predecrements at width `w` move the register by twice the step (by 4 for the stack
pointer at byte width); an instruction resolves each operand once. -/
def Obligations.SideEffectOncePerResolution : Prop :=
  ∀ (w : Width) (n : Fin 8) (s : State),
    (autoStep n w + autoStep n w).toNat = (if n = spIndex ∧ w = .byte then 4 else 2 * w.bytes) ∧
    (∀ v₁ s₁, resolve (.postincrement n : Operand w) s = .ok (v₁, s₁) →
      s₁ = { s with a := s.a.set n (s.a[n] + autoStep n w) } ∧
      ∀ v₂ s₂, resolve (.postincrement n : Operand w) s₁ = .ok (v₂, s₂) →
        s₂ = { s with a := s.a.set n (s.a[n] + autoStep n w + autoStep n w) }) ∧
    (∀ v₁ s₁, resolve (.predecrement n : Operand w) s = .ok (v₁, s₁) →
      s₁ = { s with a := s.a.set n (s.a[n] - autoStep n w) } ∧
      ∀ v₂ s₂, resolve (.predecrement n : Operand w) s₁ = .ok (v₂, s₂) →
        s₂ = { s with a := s.a.set n (s.a[n] - autoStep n w - autoStep n w) }) ∧
    (∀ dn t, exec (Instr.cmp w (.postincrement n) dn) s = .next t →
      t.a = s.a.set n (s.a[n] + autoStep n w)) ∧
    (∀ dn t, exec (Instr.cmp w (.predecrement n) dn) s = .next t →
      t.a = s.a.set n (s.a[n] - autoStep n w)) ∧
    (∀ value t, exec (Instr.cmpi w value (.postincrement n)) s = .next t →
      t.a = s.a.set n (s.a[n] + autoStep n w)) ∧
    (∀ value t, exec (Instr.cmpi w value (.predecrement n)) s = .next t →
      t.a = s.a.set n (s.a[n] - autoStep n w))

/-- The write path: a register's low bytes are replaced and the others kept, a memory operand is stored at
the address `locate` gives with the register side effect of a read, a literal or PC-relative destination is
`IllegalOperand` (decision D25, log 18; no instruction calls it). -/
def Obligations.WritePathStoresWhereTheOperandPoints : Prop :=
  ∀ (w : Width) (s : State) (v : Value w),
    (∀ n, ∃ x : Long, resolveWrite (.dataRegisterDirect n) s v = .ok { s with d := s.d.set n x } ∧
      x.toNat % 2 ^ (8 * w.bytes) = v.toNat ∧
      x.toNat / 2 ^ (8 * w.bytes) = s.d[n].toNat / 2 ^ (8 * w.bytes)) ∧
    (∀ n, ∃ x : Long, resolveWrite (.addressRegisterDirect n) s v = .ok { s with a := s.a.set n x } ∧
      x.toNat % 2 ^ (8 * w.bytes) = v.toNat ∧
      x.toNat / 2 ^ (8 * w.bytes) = s.a[n].toNat / 2 ^ (8 * w.bytes)) ∧
    (∀ value, resolveWrite (.immediate value) s v = .error .illegalOperand) ∧
    (∀ disp, resolveWrite (.programCounterDisplacement disp) s v = .error .illegalOperand) ∧
    (∀ (op : Operand w) ea after, op.mode ≠ .programCounterDisplacement →
      locate op s = .memory ea after →
      (∀ m, s.mem.write ea v = .ok m → resolveWrite op s v = .ok { after with mem := m }) ∧
      (∀ f, s.mem.write ea v = .error f → resolveWrite op s v = .error f))

/-! ### Memory -/

/-- Reads are big-endian, byte by byte modulo 2^32, at any address, odd or even, and answer `AccessFault` of
the first byte address at or above `MEM_SIZE` (decisions D14, D15, D16; logs 12, 13). -/
def Obligations.ReadIsBigEndianOrFaultsAtTheFirstMissingByte : Prop :=
  ∀ (m : Memory) (w : Width) (addr : Long),
    (m.accessible addr w.bytes → ∃ v, m.read w addr = .ok v ∧ ∀ i < w.bytes,
      v.toNat / 256 ^ (w.bytes - 1 - i) % 256 = (m.byteAt (addr + BitVec.ofNat 32 i).toNat).toNat) ∧
    (∀ i, m.firstMissing addr w.bytes i →
      m.read w addr = .error (.accessFault (addr + BitVec.ofNat 32 i)))

/-- Writes store the most significant byte at the lowest address and leave every other byte; a write that
meets a missing byte stores nothing and faults with the first one (decisions D14, D16; logs 12, 13). -/
def Obligations.WriteStoresItsBytesAndNoOther : Prop :=
  ∀ (m : Memory) (w : Width) (addr : Long) (v : Value w), m.wf →
    (m.accessible addr w.bytes → ∃ m', m.write addr v = .ok m' ∧ m'.size = m.size ∧
      (∀ i < w.bytes, (m'.byteAt (addr + BitVec.ofNat 32 i).toNat).toNat =
        v.toNat / 256 ^ (w.bytes - 1 - i) % 256) ∧
      ∀ a : Nat, (∀ i < w.bytes, a ≠ (addr + BitVec.ofNat 32 i).toNat) →
        m'.byteAt a = m.byteAt a) ∧
    (∀ i, m.firstMissing addr w.bytes i →
      m.write addr v = .error (.accessFault (addr + BitVec.ofNat 32 i)))

/-- The canonical form is canonical: two memories in it, of one size and with the same byte at every address
that exists, are the same data (the model's own form of the map of R33; log 2). -/
def Obligations.CanonicalMemoriesWithEqualBytesAreEqual : Prop :=
  ∀ m m' : Memory, m.wf → m'.wf → m.size = m'.size →
    (∀ a < m.size, m.byteAt a = m'.byteAt a) → m = m'

/-- The fetch window: the byte at `pc` first, ten bytes or as many as there are before the end of memory,
none at or past it, no wrap-around (decision D21, log 16). -/
def Obligations.FetchWindowIsTheBytesFromPc : Prop :=
  ∀ s : State,
    s.fetchWindow.length = min 10 (s.mem.size - s.pc.toNat) ∧
    ∀ k < 10, s.pc.toNat + k < s.mem.size →
      s.fetchWindow[k]? = some (s.mem.byteAt (s.pc.toNat + k))

/-- A byte the host writes is what the next fetch sees, with no further action, and no other byte of the
window changes (decision D32). -/
def Obligations.HostStoreIsSeenByTheNextFetch : Prop :=
  ∀ (s : State) (a k : Nat) (b : Byte), s.mem.wf → a < s.mem.size → k < s.fetchWindow.length →
    ((HostAction.writeByte a b).apply s).fetchWindow[k]? =
      if s.pc.toNat + k = a then some b else s.fetchWindow[k]?

/-! ### Flags and the value type -/

/-- R194: Carry is the borrow of the unsigned subtraction, destination minus source. -/
def Obligations.CarryIsTheUnsignedBorrow : Prop :=
  ∀ (w : Width) (src dst : Value w),
    (subFlags src dst).c = true ↔ (dst.toNat : Int) - src.toNat < 0

/-- The flags as facts about numbers, and the gate forms of the top bits: Z is equality, C the unsigned
order, V a signed difference out of range, N xor V the signed order, N the top bit of the masked difference
(43_flag_generator.md section 3, from the unified formulas of decisions D17 and D18; log 14). -/
def Obligations.FlagsDecideBothOrders : Prop :=
  ∀ (w : Width) (src dst : Value w),
    ((subFlags src dst).z = true ↔ src = dst) ∧
    ((subFlags src dst).c = true ↔ dst.toNat < src.toNat) ∧
    ((subFlags src dst).n = true ↔
      2 ^ (8 * w.bytes - 1) ≤ ((dst.toNat : Int) - src.toNat) % 2 ^ (8 * w.bytes)) ∧
    ((subFlags src dst).v = true ↔
      dst.toInt - src.toInt < -2 ^ (8 * w.bytes - 1) ∨
      2 ^ (8 * w.bytes - 1) - 1 < dst.toInt - src.toInt) ∧
    (((subFlags src dst).n != (subFlags src dst).v) = true ↔ dst.toInt < src.toInt) ∧
    (subFlags src dst).c = ((src.msb && !dst.msb) || ((subFlags src dst).n && !dst.msb) ||
      (src.msb && (subFlags src dst).n)) ∧
    (subFlags src dst).v = ((src.msb ^^ dst.msb) && ((subFlags src dst).n ^^ dst.msb))

/-- R101: construction reduces any magnitude modulo 2^(8w) and fails, with `BadWidth`, exactly on a width tag
other than 1, 2 or 4, which no instruction's width is. -/
def Obligations.ConstructionReducesModuloTheWidth : Prop :=
  (∀ (tag : Nat) (m : Int), tag ∈ [1, 2, 4] → ∃ x, SizedValue.fromSigned tag m = .ok x ∧
    x.width.bytes = tag ∧ (x.unsigned : Int) = m % 2 ^ (8 * tag)) ∧
  (∀ tag m : Nat, tag ∈ [1, 2, 4] → ∃ x, SizedValue.fromUnsigned tag m = .ok x ∧
    x.width.bytes = tag ∧ x.unsigned = m % 2 ^ (8 * tag)) ∧
  (∀ (tag : Nat) (m : Int) (k : Nat), tag ∉ [1, 2, 4] →
    SizedValue.fromSigned tag m = .error .badWidth ∧ SizedValue.fromUnsigned tag k = .error .badWidth) ∧
  (∀ i : Instr, i.width.bytes ∈ [1, 2, 4])

/-- R103: at one width addition and subtraction never fail, wrap modulo 2^(8w), and give the same value
whether the operands are read as signed or unsigned. -/
def Obligations.ArithmeticWrapsAtTheWidth : Prop :=
  ∀ (w : Width) (a b : Value w),
    (∃ z, SizedValue.add ⟨w, a⟩ ⟨w, b⟩ = .ok z ∧ z.width = w ∧
      z.unsigned = (a.toNat + b.toNat) % 2 ^ (8 * w.bytes) ∧
      (z.unsigned : Int) = (a.toInt + b.toInt) % 2 ^ (8 * w.bytes)) ∧
    (∃ z, SizedValue.sub ⟨w, a⟩ ⟨w, b⟩ = .ok z ∧ z.width = w ∧
      (z.unsigned : Int) = ((a.toNat : Int) - b.toNat) % 2 ^ (8 * w.bytes) ∧
      (z.unsigned : Int) = (a.toInt - b.toInt) % 2 ^ (8 * w.bytes))

/-- R102, R104, R105: the unsigned and signed views and the sign bit of a value, equality and the two orderings at
one width, and masking, which gives the low-order bytes and never widens. -/
def Obligations.ValuesCompareAndMaskByTheirViews : Prop :=
  ∀ (w w' : Width) (a b : Value w),
    (SizedValue.mk w a).signed = (if a.toNat < 2 ^ (8 * w.bytes - 1) then (a.toNat : Int)
      else (a.toNat : Int) - 2 ^ (8 * w.bytes)) ∧
    (SizedValue.mk w a).unsigned = a.toNat ∧
    ((SizedValue.mk w a).sign = true ↔ 2 ^ (8 * w.bytes - 1) ≤ a.toNat) ∧
    SizedValue.eq ⟨w, a⟩ ⟨w, b⟩ = .ok (decide (a.toNat = b.toNat)) ∧
    SizedValue.ltU ⟨w, a⟩ ⟨w, b⟩ = .ok (decide (a.toNat < b.toNat)) ∧
    SizedValue.ltS ⟨w, a⟩ ⟨w, b⟩ =
      .ok (decide ((SizedValue.mk w a).signed < (SizedValue.mk w b).signed)) ∧
    (w'.bytes ≤ w.bytes → ∃ z, SizedValue.mask ⟨w, a⟩ w' = some z ∧ z.width = w' ∧
      z.unsigned = a.toNat % 2 ^ (8 * w'.bytes)) ∧
    (w.bytes < w'.bytes → SizedValue.mask ⟨w, a⟩ w' = none)

/-- Arithmetic and comparison of two widths answer `WidthMismatch` and no value (decision D26, log 19). -/
def Obligations.MixedWidthsAreRejected : Prop :=
  ∀ x y : SizedValue, x.width ≠ y.width →
    x.add y = .error .widthMismatch ∧ x.sub y = .error .widthMismatch ∧
    x.eq y = .error .widthMismatch ∧ x.ltU y = .error .widthMismatch ∧
    x.ltS y = .error .widthMismatch

/-! ### The instructions -/

/-- R211, R212: `CMP.B`, `CMP.W`, `CMP.L` (`Instr.cmp w` is `cmpB`, `cmpW`, `cmpL`). Wherever the source is
readable the instruction completes: the state is the one the source's resolution left, with N, Z, V, C the
flags of `D[dn]`'s low `w` bytes minus the source and `pc` advanced by `2L`, `L = 1 + ext(src, w)`; nothing
else changes. -/
def Obligations.CmpCompletesWithTheFlagsOfTheDifference : Prop :=
  ∀ (w : Width) (src : Operand w) (dn : Fin 8) (s : State), readable src s = true →
    ∃ v s₁, resolve src s = .ok (v, s₁) ∧
      s₁ = { s with a := s₁.a } ∧ (∀ k : Fin 8, stepped src ≠ some k → s₁.a[k] = s.a[k]) ∧
      exec (Instr.cmp w src dn) s = .next { s₁ with
        flagN := (subFlags v (s.d[dn].setWidth w.bits)).n
        flagZ := (subFlags v (s.d[dn].setWidth w.bits)).z
        flagV := (subFlags v (s.d[dn].setWidth w.bits)).v
        flagC := (subFlags v (s.d[dn].setWidth w.bits)).c
        pc := s.pc + BitVec.ofNat 32 (2 * (1 + src.mode.ext w)) }

/-- R221, R222: `CMPI.B`, `CMPI.W`, `CMPI.L` (`Instr.cmpi w` is `cmpiB`, `cmpiW`, `cmpiL`). Wherever the
destination is readable the instruction completes: the state is the one the destination's resolution left, with
N, Z, V, C the flags of the destination minus the literal and `pc` advanced by `2L`,
`L = 1 + ext(Immediate, w) + ext(dst, w)`; nothing else changes. -/
def Obligations.CmpiCompletesWithTheFlagsOfTheDifference : Prop :=
  ∀ (w : Width) (value : Value w) (dst : Operand w) (s : State),
    (Instr.cmpi w value dst).wf = true → readable dst s = true →
    ∃ v s₁, resolve dst s = .ok (v, s₁) ∧
      s₁ = { s with a := s₁.a } ∧ (∀ k : Fin 8, stepped dst ≠ some k → s₁.a[k] = s.a[k]) ∧
      exec (Instr.cmpi w value dst) s = .next { s₁ with
        flagN := (subFlags value v).n
        flagZ := (subFlags value v).z
        flagV := (subFlags value v).v
        flagC := (subFlags value v).c
        pc := s.pc + BitVec.ofNat 32 (2 * (1 + AddrMode.immediate.ext w + dst.mode.ext w)) }

/-- R213: how far each `CMP` moves `pc`: 2 bytes with no extension word, 4 for the short and displacement modes
and a byte or word immediate, 6 for an absolute long and a long immediate. -/
def Obligations.CmpAdvancesPcByItsLength : Prop :=
  ∀ (w : Width) (src : Operand w) (dn : Fin 8) (s t : State),
    exec (Instr.cmp w src dn) s = .next t →
    t.pc = s.pc + (match src with
      | .dataRegisterDirect _ => 2#32
      | .addressRegisterDirect _ => 2#32
      | .addressRegisterIndirect _ => 2#32
      | .postincrement _ => 2#32
      | .predecrement _ => 2#32
      | .indirectWithDisplacement _ _ => 4#32
      | .absoluteShort _ => 4#32
      | .absoluteLong _ => 6#32
      | .programCounterDisplacement _ => 4#32
      | .immediate _ => if w = .long then 6#32 else 4#32)

/-- R223: how far each `CMPI` moves `pc`: 4 bytes at byte and word width and 6 at long width, plus 2 for a
short or displacement destination and 4 for an absolute long one. -/
def Obligations.CmpiAdvancesPcByItsLength : Prop :=
  ∀ (w : Width) (value : Value w) (dst : Operand w) (s t : State),
    (Instr.cmpi w value dst).wf = true → exec (Instr.cmpi w value dst) s = .next t →
    t.pc = s.pc + (if w = .long then 6#32 else 4#32) +
      (if dst.mode = .indirectWithDisplacement ∨ dst.mode = .programCounterDisplacement ∨
          dst.mode = .absoluteShort then 2#32
        else if dst.mode = .absoluteLong then 4#32 else 0#32)

/-- R214: `CMP` stops exactly when its source is a memory operand with a byte at or above `MEM_SIZE`; it stops with
`AccessFault` of the first such byte, the state the host finds is the one before, and nothing else is
raised. -/
def Obligations.CmpStopsOnlyOnAMissingSourceByte : Prop :=
  ∀ (w : Width) (src : Operand w) (dn : Fin 8) (s : State),
    (readable src s = false → ∃ ea after i, locate src s = .memory ea after ∧
      s.mem.firstMissing ea w.bytes i ∧
      exec (Instr.cmp w src dn) s = .fault (.accessFault (ea + BitVec.ofNat 32 i)) ∧
      s.after (exec (Instr.cmp w src dn) s) = s) ∧
    (readable src s = true → ∃ t, exec (Instr.cmp w src dn) s = .next t)

/-- R224: `CMPI` stops exactly when its destination is a memory operand with a byte at or above `MEM_SIZE`; it stops
with `AccessFault` of the first such byte, the state the host finds is the one before, and nothing else is
raised. -/
def Obligations.CmpiStopsOnlyOnAMissingDestinationByte : Prop :=
  ∀ (w : Width) (value : Value w) (dst : Operand w) (s : State),
    (Instr.cmpi w value dst).wf = true →
    (readable dst s = false → ∃ ea after i, locate dst s = .memory ea after ∧
      s.mem.firstMissing ea w.bytes i ∧
      exec (Instr.cmpi w value dst) s = .fault (.accessFault (ea + BitVec.ofNat 32 i)) ∧
      s.after (exec (Instr.cmpi w value dst) s) = s) ∧
    (readable dst s = true → ∃ t, exec (Instr.cmpi w value dst) s = .next t)

/-- R27: after any instruction `pc` is its value before plus the byte length of the instruction's encoding,
modulo 2^32 (the wrap is decision D16). -/
def Obligations.PcAdvancesByTheEncodedLength : Prop :=
  ∀ (i : Instr) (s t : State), i.wf = true → exec i s = .next t →
    t.pc = s.pc + BitVec.ofNat 32 (encode i).length

/-- The frame of all six instructions, none of which stores: every data register, X, every address register
but the one a postincrement or predecrement operand steps, and every byte of memory are unchanged
(10_state.md sections 1, 2, 4, 6; X under `CMPI` is decision D19, log 15). -/
def Obligations.CompareLeavesEverythingElse : Prop :=
  ∀ (i : Instr) (s t : State), i.wf = true → exec i s = .next t →
    (∀ n : Fin 8, t.d[n] = s.d[n]) ∧
    (∀ n : Fin 8, stepped i.src ≠ some n → stepped i.dst ≠ some n → t.a[n] = s.a[n]) ∧
    t.flagX = s.flagX ∧
    t.mem.size = s.mem.size ∧ ∀ a : Nat, t.mem.byteAt a = s.mem.byteAt a

/-- R31: nothing reads a flag. Two states that differ only in their flags give the same outcome, and next
states that differ only in X, which each keeps from its own state. -/
def Obligations.NoInstructionReadsAFlag : Prop :=
  ∀ (i : Instr) (s : State) (n z v c x : Bool),
    exec i { s with flagN := n, flagZ := z, flagV := v, flagC := c, flagX := x } =
      match exec i s with
      | .next t => .next { t with flagX := x }
      | .fault f => .fault f
      | .refused r => .refused r

/-- The upper bytes of the data registers have no influence on a compare narrower than they are, and are kept
(44_cmp.md section on corner cases, 45_cmpi.md the same). -/
def Obligations.NarrowCompareIgnoresUpperBytes : Prop :=
  ∀ (i : Instr) (s : State) (d' : Vector Long 8),
    (∀ k : Fin 8, d'[k].toNat % 2 ^ (8 * i.width.bytes) = s.d[k].toNat % 2 ^ (8 * i.width.bytes)) →
    exec i { s with d := d' } =
      match exec i s with
      | .next t => .next { t with d := d' }
      | .fault f => .fault f
      | .refused r => .refused r

/-! ### The encoding -/

/-- The bits of the opcode word as a number, for every operand: the tag, the destination register at bit 9 of
`CMP`, the size code at bit 6, the addressing code below it (30_encoding.md sections 2 and 3: the positions are
decision D4, log 6, the codes the spec's defaults D3, D5, D6, log 5). -/
def Obligations.EncodeLaysOutTheOpcodeFields : Prop :=
  ∀ (w : Width) (op : Operand w) (size ea : Nat),
    size = (match w with | .byte => 0 | .word => 1 | .long => 2) →
    ea = (match op with
      | .dataRegisterDirect n => n.val
      | .addressRegisterDirect n => 8 + n.val
      | .addressRegisterIndirect n => 16 + n.val
      | .postincrement n => 24 + n.val
      | .predecrement n => 32 + n.val
      | .indirectWithDisplacement n _ => 40 + n.val
      | .absoluteShort _ => 56
      | .absoluteLong _ => 57
      | .programCounterDisplacement _ => 58
      | .immediate _ => 60) →
    (∀ dn : Fin 8, (wordAt (encode (Instr.cmp w op dn)) 0).toNat =
      0xB000 + dn.val * 512 + size * 64 + ea) ∧
    (∀ value : Value w, (wordAt (encode (Instr.cmpi w value op)) 0).toNat = 0x0C00 + size * 64 + ea)

/-- Decoding what was encoded gives the instruction back, whatever bytes follow, and the encoding has `2L` bytes
(42_decoder_dispatch.md section 6, round trip (a) of R179, and R177). That anything shorter is `Malformed` is
the spec's own extension of that outcome (decision D22, log 16). -/
def Obligations.DecodeOfEncodeIsTheInstruction : Prop :=
  ∀ i : Instr, i.wf = true →
    (encode i).length = 2 * i.lengthWords ∧
    (∀ rest : List Byte, decode (encode i ++ rest) = .ok i) ∧
    ∀ n < 2 * i.lengthWords, decode ((encode i).take n) = .error .malformed

/-- Encoding what was decoded gives the first `2L` bytes back, but for the high byte of a byte immediate's
word, which is 0 in the encoding (42_decoder_dispatch.md section 6, round trip (b)). -/
def Obligations.EncodeOfDecodeIsTheBytes : Prop :=
  ∀ (b : List Byte) (i : Instr), decode b = .ok i →
    (encode i).length = 2 * i.lengthWords ∧ 2 * i.lengthWords ≤ b.length ∧
    ∀ k < 2 * i.lengthWords, (encode i)[k]? = b[k]? ∨
      (k = 2 ∧ i.width = .byte ∧ i.src.mode = .immediate ∧ (encode i)[k]? = some 0#8)

/-- The decoder reads no byte beyond the instruction: the bytes after its `2L` may be any others
(42_decoder_dispatch.md section 6). -/
def Obligations.DecodeReadsNoByteBeyond : Prop :=
  ∀ (b rest : List Byte) (i : Instr), decode b = .ok i →
    decode (b.take (2 * i.lengthWords) ++ rest) = .ok i

/-- Which outcome the decoder gives, by the order of its checks, on the opcode word as a number. The length `n` in
words comes from the fields of that word alone (42_decoder_dispatch.md section 6, the order of the checks;
30_encoding.md section 5; the numeric codes are the spec's defaults D3, D5, D6, log 5, the positions D4, log 6,
the displacement word D7, log 9, the outcomes D22, D23, logs 16, 17). -/
def Obligations.DecodeOutcomeByTheOrderOfChecks : Prop :=
  ∀ (b : List Byte) (op mode reg ext : Nat),
    op = (b.getD 0 0#8).toNat * 256 + (b.getD 1 0#8).toNat → mode = op / 8 % 8 → reg = op % 8 →
    ext = (if mode ≤ 4 then 0 else if mode = 7 ∧ reg = 1 then 2 else 1) →
    (b.length < 2 → decode b = .error .malformed) ∧
    (2 ≤ b.length → op / 4096 ≠ 0xB → op / 256 ≠ 0x0C → decode b = .error .noMatch) ∧
    (2 ≤ b.length → op / 256 = 0x0C → b.length < 4 → decode b = .error .malformed) ∧
    (2 ≤ b.length → op / 4096 = 0xB →
      ¬ (op / 64 % 8 ≤ 2 ∧ (mode ≤ 5 ∨ (mode = 7 ∧ (reg ≤ 2 ∨ reg = 4)))) →
      decode b = .error .illegalOperand) ∧
    (4 ≤ b.length → op / 256 = 0x0C →
      ¬ (op / 64 % 4 ≤ 2 ∧ mode ≠ 1 ∧ (mode ≤ 5 ∨ (mode = 7 ∧ reg ≤ 2))) →
      decode b = .error .illegalOperand) ∧
    (∀ n, 2 ≤ b.length → op / 4096 = 0xB → op / 64 % 8 ≤ 2 →
      (mode ≤ 5 ∨ (mode = 7 ∧ (reg ≤ 2 ∨ reg = 4))) →
      n = 1 + (if mode = 7 ∧ reg = 4 ∧ op / 64 % 8 = 2 then 2 else ext) →
      (b.length < 2 * n → decode b = .error .malformed) ∧
      (2 * n ≤ b.length → ∃ i, decode b = .ok i ∧ i.family = .cmp ∧ i.lengthWords = n)) ∧
    (∀ n, 4 ≤ b.length → op / 256 = 0x0C → op / 64 % 4 ≤ 2 → mode ≠ 1 →
      (mode ≤ 5 ∨ (mode = 7 ∧ reg ≤ 2)) →
      n = 1 + (if op / 64 % 4 = 2 then 2 else 1) + ext →
      (b.length < 2 * n → decode b = .error .malformed) ∧
      (2 * n ≤ b.length → ∃ i, decode b = .ok i ∧ i.family = .cmpi ∧ i.lengthWords = n))

/-- The two tags cannot both match, so the probe order has no observable effect: probing `CMP` first gives the
same answer on every input (30_encoding.md section 4, 42_decoder_dispatch.md section 6). -/
def Obligations.ProbeOrderHasNoEffect : Prop :=
  ∀ b : List Byte,
    decode b = match decodeCmp b with
      | .ok i => .ok i
      | .error .illegalOperand => .error .illegalOperand
      | .error .malformed => .error .malformed
      | .error .noMatch => decodeCmpi b

/-- The high byte of a byte immediate's word does not matter to the decoder (decision D8, log 10). -/
def Obligations.ByteImmediateHighByteIsIgnored : Prop :=
  ∀ (b₀ b₁ h h' : Byte) (rest : List Byte) (i : Instr),
    decode (b₀ :: b₁ :: h :: rest) = .ok i → i.width = .byte → i.src.mode = .immediate →
    decode (b₀ :: b₁ :: h' :: rest) = .ok i

/-- Words written out bit by bit from the formats decode to the instructions they stand for, one or two of
each row (30_encoding.md section 6; the codes are the spec's defaults, log 5). -/
def Obligations.WrittenOutWordsDecode : Prop :=
  decode [0b10110010#8, 0b00000000#8] = .ok (.cmpB (.dataRegisterDirect 0) 1) ∧
  decode [0b10110000#8, 0b01101001#8, 0xFF#8, 0xFE#8] =
    .ok (.cmpW (.indirectWithDisplacement 1 0xFFFE#16) 0) ∧
  decode [0b10110110#8, 0b10011000#8] = .ok (.cmpL (.postincrement 0) 3) ∧
  decode [0b10111110#8, 0b10111100#8, 0x00#8, 0xC0#8, 0xFF#8, 0xEE#8] =
    .ok (.cmpL (.immediate 0x00C0FFEE#32) 7) ∧
  decode [0b00001100#8, 0b00100111#8, 0x00#8, 0x01#8] = .ok (.cmpiB 1#8 (.predecrement 7)) ∧
  decode [0b00001100#8, 0b01000000#8, 0x00#8, 0x34#8] =
    .ok (.cmpiW 0x0034#16 (.dataRegisterDirect 0)) ∧
  decode [0b00001100#8, 0b10111001#8, 0x00#8, 0x00#8, 0x00#8, 0x01#8, 0x00#8, 0x01#8, 0x23#8, 0x45#8] =
    .ok (.cmpiL 1#32 (.absoluteLong 0x00012345#32))

/-! ### The instruction contract -/

/-- Whatever the decoder answers is well formed, and is the instruction `Construct` makes of its records, width
and family, as is every well-formed instruction (42_decoder_dispatch.md section 1; the model's decoder builds
the typed record directly, log 27). -/
def Obligations.DecodedInstructionsAreConstructible : Prop :=
  (∀ (b : List Byte) (i : Instr), decode b = .ok i → i.wf = true) ∧
  ∀ i : Instr, i.wf = true → construct i.family (recordsOf i) i.width.bytes = .ok i

/-- `Construct` accepts two operands in range, legal in their positions, at a width of 1, 2 or 4 bytes, gives
the well-formed instruction of that family and width, and answers `IllegalOperand` on any violation
(42_decoder_dispatch.md section 2; ranges and widths are decisions D29, D33, logs 20, 22). -/
def Obligations.ConstructAcceptsExactlyTheLegal : Prop :=
  ∀ (family : Family) (ops : List OperandRecord) (tag : Nat),
    ((∃ src dst, tag ∈ [1, 2, 4] ∧ ops = [src, dst] ∧ recordInRange src ∧ recordInRange dst ∧
        (family = .cmp → recordMode dst = .dataRegisterDirect) ∧
        (family = .cmpi → recordMode src = .immediate ∧ recordMode dst ≠ .addressRegisterDirect ∧
          recordMode dst ≠ .immediate)) →
      ∃ i, construct family ops tag = .ok i ∧ i.wf = true ∧ i.family = family ∧
        i.width.bytes = tag) ∧
    (¬ (∃ src dst, tag ∈ [1, 2, 4] ∧ ops = [src, dst] ∧ recordInRange src ∧ recordInRange dst ∧
        (family = .cmp → recordMode dst = .dataRegisterDirect) ∧
        (family = .cmpi → recordMode src = .immediate ∧ recordMode dst ≠ .addressRegisterDirect ∧
          recordMode dst ≠ .immediate)) →
      construct family ops tag = .error .illegalOperand)

/-- An immediate is reduced modulo 2^(8w) at construction: two literals that agree modulo 2^(8w) make the same
instruction (decision D29, log 22). -/
def Obligations.ConstructReducesImmediates : Prop :=
  ∀ (tag : Nat) (m m' : Int) (other : OperandRecord), m % 2 ^ (8 * tag) = m' % 2 ^ (8 * tag) →
    construct .cmpi [.immediate m, other] tag = construct .cmpi [.immediate m', other] tag ∧
    construct .cmp [.immediate m, other] tag = construct .cmp [.immediate m', other] tag

/-- Each family claims its own mnemonic with or without a size suffix and no other text, so not a mnemonic it is
a prefix of; the order of the text dispatch cannot matter (42_decoder_dispatch.md section 3; the
strings are decisions D2, D28, log 21). -/
def Obligations.MatchesTheWholeMnemonic : Prop :=
  ∀ t : Text,
    (matchesText .cmp t = true ↔ t ∈ [['C', 'M', 'P'], ['C', 'M', 'P', '.', 'B'],
      ['C', 'M', 'P', '.', 'W'], ['C', 'M', 'P', '.', 'L']]) ∧
    (matchesText .cmpi t = true ↔ t ∈ [['C', 'M', 'P', 'I'], ['C', 'M', 'P', 'I', '.', 'B'],
      ['C', 'M', 'P', 'I', '.', 'W'], ['C', 'M', 'P', 'I', '.', 'L']]) ∧
    (textDispatch t = some .cmp ↔ matchesText .cmp t = true) ∧
    (textDispatch t = some .cmpi ↔ matchesText .cmpi t = true)

/-- The static length, computed from the mnemonic's size suffix and the operands' modes alone, is half the
number of bytes of the encoding (42_decoder_dispatch.md section 4; the displacement word is counted by
decision D31, log 9). -/
def Obligations.StaticLengthIsHalfTheEncoding : Prop :=
  ∀ (i : Instr) (t : Text), i.wf = true → matchesText i.family t = true →
    suffixWidth t = some i.width →
    ∃ n, staticWordLength t i.src.mode i.dst.mode = some n ∧ 2 * n = (encode i).length

/-! ### The step and runs -/

/-- A step runs the decoded instruction: where the bytes at `pc` decode to `i`, the step is `exec` of `i` in
that same state, and where they do not, the step stops with the decoder's outcome (46_step.md first section,
decision D21, log 16). -/
def Obligations.StepRunsTheDecodedInstruction : Prop :=
  ∀ s : State,
    (∀ i, decode s.fetchWindow = .ok i → step s = exec i s) ∧
    (decode s.fetchWindow = .error .noMatch → step s = .fault .noMatch) ∧
    (decode s.fetchWindow = .error .malformed → step s = .fault .malformed) ∧
    (decode s.fetchWindow = .error .illegalOperand → step s = .fault .illegalOperand)

/-- R231: a step is one transition: the next state is the whole effect of the decoded instruction, or the step
stops and the host finds the state exactly as it was. -/
def Obligations.StepIsAllOrNothing : Prop :=
  ∀ s : State,
    (∃ t i, step s = .next t ∧ s.after (step s) = t ∧ decode s.fetchWindow = .ok i ∧
      exec i s = .next t) ∨
    (∃ f, step s = .fault f ∧ s.after (step s) = s)

/-- A step stops with `NoMatch`, `Malformed`, `IllegalOperand` or `AccessFault` and with nothing else: never
`BadWidth` or `WidthMismatch`, never a refusal, and `Execute` itself only with `AccessFault`; a decoder's
outcome comes before any access of the operand (60_exceptions.md sections 1 and 2; decisions D21, D26). -/
def Obligations.StopsAreTheNamedOutcomes : Prop :=
  (∀ s f, step s = .fault f →
    f = .noMatch ∨ f = .malformed ∨ f = .illegalOperand ∨ ∃ a, f = .accessFault a) ∧
  (∀ s r, step s ≠ .refused r) ∧
  (∀ i s f, exec i s = .fault f → ∃ a, f = .accessFault a ∧ s.mem.size ≤ a.toNat) ∧
  (∀ i s r, exec i s ≠ .refused r) ∧
  (∀ s a, step s = .fault (.accessFault a) → ∃ i, decode s.fetchWindow = .ok i)

/-- `pc` keeps its parity from one instruction to the next (10_state.md section 3). -/
def Obligations.PcKeepsItsParity : Prop :=
  ∀ s t : State, step s = .next t → t.pc.toNat % 2 = s.pc.toNat % 2

/-- In a memory smaller than 2^32 a step that answers a next state raises `pc` by 2 to 10, without wrapping
and never past the end of memory (46_step.md, the end of a run; decision D21). -/
def Obligations.EachStepRaisesPc : Prop :=
  ∀ s t : State, s.mem.size < 2 ^ 32 → step s = .next t →
    s.pc.toNat + 2 ≤ t.pc.toNat ∧ t.pc.toNat ≤ s.pc.toNat + 10 ∧ t.pc.toNat ≤ s.mem.size

/-- The machine's invariant holds right after reset (the reset memory is the model's choice, logs 2 and 3). -/
def Obligations.ResetKeepsTheCanonicalForm : Prop := State.reset.Inv

/-- Every step, and every write of the host between steps, keeps the memory in its canonical form and its size
(the canonical form is the model's, log 2; that no step changes the size is log 3). -/
def Obligations.EveryStepKeepsTheCanonicalForm : Prop :=
  (∀ s t : State, s.Inv → step s = .next t → t.Inv ∧ t.mem.size = s.mem.size) ∧
  (∀ (s : State) (x : HostAction), s.Inv → (x.apply s).Inv ∧ (x.apply s).mem.size = s.mem.size)

/-- In a memory smaller than 2^32 every run ends, within `MEM_SIZE / 2` steps at most, whatever state it
starts in (46_step.md, the end of a run; decision D21). -/
def Obligations.EveryRunEndsWithinHalfTheMemory : Prop :=
  ∀ s : State, s.mem.size < 2 ^ 32 →
    ∃ k ≤ s.mem.size / 2, ∃ t, stepsTo k s = some t ∧ Stopped t

/-- However long a run is, it leaves every data register, X and every byte of memory as the host left them,
and `pc` has moved by an even number of bytes, at most ten a step (10_state.md sections 1, 3, 4, 6). -/
def Obligations.NoRunWritesDataOrMemory : Prop :=
  ∀ (k : Nat) (s t : State), stepsTo k s = some t →
    t.d = s.d ∧ t.flagX = s.flagX ∧ t.mem = s.mem ∧
    ∃ n, k ≤ n ∧ n ≤ 5 * k ∧ t.pc = s.pc + BitVec.ofNat 32 (2 * n)

/-- An instruction placed by the model's loader is the one the next step runs, and only the ten bytes at `pc`
are written (the load is the host's; `withFetchWord` and its numbering are the model's, log 25). -/
def Obligations.PlacedInstructionIsTheOneRun : Prop :=
  ∀ (s : State) (nbits w : Nat) (i : Instr), s.mem.wf → s.pc.toNat + 10 ≤ s.mem.size →
    decodeTableWord nbits w = some i →
    step (s.withFetchWord nbits w) = exec i (s.withFetchWord nbits w) ∧
    { s.withFetchWord nbits w with mem := s.mem } = s ∧
    ∀ a : Nat, a < s.pc.toNat ∨ s.pc.toNat + 10 ≤ a →
      (s.withFetchWord nbits w).mem.byteAt a = s.mem.byteAt a

/-! ### The numeric codes of the outcomes -/

/-- Every outcome has its numeric code, `Ok` 0, and code 4 is none's; the dispatcher answers only 0 to 3 and a step
only 0, 1, 2, 3 and 5 (60_exceptions.md section 1; the names and codes are decision D22, log 16). -/
def Obligations.OutcomesHaveTheirNumericCodes : Prop :=
  (∀ (α : Type) (r : Except Fault α),
    (resultCode r = 0 ↔ ∃ x, r = .ok x) ∧ (resultCode r = 1 ↔ r = .error .illegalOperand) ∧
    (resultCode r = 2 ↔ r = .error .noMatch) ∧ (resultCode r = 3 ↔ r = .error .malformed) ∧
    resultCode r ≠ 4 ∧ (resultCode r = 5 ↔ ∃ a, r = .error (.accessFault a)) ∧
    (resultCode r = 6 ↔ r = .error .badWidth) ∧ (resultCode r = 7 ↔ r = .error .widthMismatch) ∧
    resultCode r ≤ 7) ∧
  (∀ b : List Byte,
    (decodeCode (decode b) = 0 ↔ ∃ i, decode b = .ok i) ∧
    (decodeCode (decode b) = 1 ↔ decode b = .error .illegalOperand) ∧
    (decodeCode (decode b) = 2 ↔ decode b = .error .noMatch) ∧
    (decodeCode (decode b) = 3 ↔ decode b = .error .malformed) ∧ decodeCode (decode b) ≤ 3) ∧
  (∀ s : State,
    (stepCode (step s) = some 0 ↔ ∃ t, step s = .next t) ∧
    (stepCode (step s) = some 1 ↔ step s = .fault .illegalOperand) ∧
    (stepCode (step s) = some 2 ↔ step s = .fault .noMatch) ∧
    (stepCode (step s) = some 3 ↔ step s = .fault .malformed) ∧
    (stepCode (step s) = some 5 ↔ ∃ a, step s = .fault (.accessFault a)) ∧
    stepCode (step s) ∈ [some 0, some 1, some 2, some 3, some 5])
end

