-- ==== Sys2Proof/Laws/Word.lean ====
section
/-! SUPPORT. The numbers of the three widths. -/

namespace Sys2Proof

@[simp] theorem Width.bytes_byte : Width.byte.bytes = 1 := rfl
@[simp] theorem Width.bytes_word : Width.word.bytes = 2 := rfl
@[simp] theorem Width.bytes_long : Width.long.bytes = 4 := rfl

theorem Width.bits_eq_eight_mul_bytes (w : Width) : w.bits = 8 * w.bytes := by cases w <;> rfl

theorem Width.two_pow_bits (w : Width) : 2 ^ w.bits = 256 ^ w.bytes := by cases w <;> rfl

theorem Width.bits_pos (w : Width) : 0 < w.bits := by cases w <;> decide

theorem Width.bytes_pos (w : Width) : 0 < w.bytes := by cases w <;> decide

theorem Width.bytes_le_four (w : Width) : w.bytes ≤ 4 := by cases w <;> decide

@[simp] theorem Width.ofBytes_bytes (w : Width) : Width.ofBytes? w.bytes = some w := by
  cases w <;> rfl

theorem Width.ofBytes_eq_some {tag : Nat} {w : Width} :
    Width.ofBytes? tag = some w ↔ w.bytes = tag := by
  constructor
  · intro h
    unfold Width.ofBytes? at h
    split at h
    · cases h; subst tag; rfl
    · split at h
      · cases h; subst tag; rfl
      · split at h
        · cases h; subst tag; rfl
        · cases h
  · rintro rfl; exact Width.ofBytes_bytes w

end Sys2Proof
end

