-- ==== Sys2Proof/Laws/Memory.lean ====
section
/-! SUPPORT. Memory: read after write on bytes, and that every memory operation keeps the canonical form. -/

namespace Sys2Proof.Machine

/-! ### Cells -/

/-- A list of cells in canonical form: addresses rising, no byte 0. -/
abbrev cellsWf (cells : List Host.Cell) : Prop :=
  cells.Pairwise (fun c c' => c.1 < c'.1) ∧ ∀ c ∈ cells, c.2 ≠ 0#8

theorem lookupCell_eq_zero_of_lt {cells : List Host.Cell} {a : Nat} (h : ∀ c ∈ cells, a < c.1) :
    lookupCell cells a = 0#8 := by
  induction cells with
  | nil => rfl
  | cons c rest ih =>
    obtain ⟨k, b⟩ := c
    have hk : a < k := h (k, b) (by simp)
    simp only [lookupCell, if_neg (by omega : ¬ k = a)]
    exact ih fun c hc => h c (by simp [hc])

/-- Every cell after a store is an old one or the stored one. -/
theorem mem_storeCell {cells : List Host.Cell} {a : Nat} {b : Byte} {c : Host.Cell}
    (h : c ∈ storeCell cells a b) : c ∈ cells ∨ (c = (a, b) ∧ b ≠ 0#8) := by
  induction cells with
  | nil =>
    by_cases hb : b = 0#8 <;> simp_all [storeCell]
  | cons d rest ih =>
    obtain ⟨k, x⟩ := d
    unfold storeCell at h
    split at h
    · split at h
      · exact .inl h
      · rcases List.mem_cons.mp h with rfl | h
        · exact .inr ⟨rfl, ‹_›⟩
        · exact .inl h
    · split at h
      · split at h
        · exact .inl (List.mem_cons_of_mem _ h)
        · rcases List.mem_cons.mp h with rfl | h
          · exact .inr ⟨rfl, ‹_›⟩
          · exact .inl (List.mem_cons_of_mem _ h)
      · rcases List.mem_cons.mp h with rfl | h
        · exact .inl (by simp)
        · exact (ih h).imp (List.mem_cons_of_mem _) id

/-- A store keeps the canonical form of cells. -/
theorem storeCell_wf {cells : List Host.Cell} {a : Nat} {b : Byte} (h : cellsWf cells) :
    cellsWf (storeCell cells a b) := by
  refine ⟨?_, fun c hc => (mem_storeCell hc).elim (h.2 c) fun e => by simpa [e.1] using e.2⟩
  obtain ⟨hs, -⟩ := h
  induction cells with
  | nil => by_cases hb : b = 0#8 <;> simp [storeCell, hb]
  | cons d rest ih =>
    obtain ⟨k, x⟩ := d
    obtain ⟨hk, hrest⟩ := List.pairwise_cons.mp hs
    unfold storeCell
    split
    · rename_i hlt
      split
      · exact hs
      · refine List.pairwise_cons.mpr ⟨fun c hc => ?_, hs⟩
        rcases List.mem_cons.mp hc with rfl | hc
        · exact hlt
        · exact Nat.lt_trans hlt (hk c hc)
    · split
      · rename_i _ heq
        subst heq
        split
        · exact hrest
        · exact List.pairwise_cons.mpr ⟨hk, hrest⟩
      · refine List.pairwise_cons.mpr ⟨fun c hc => ?_, ih hrest⟩
        rcases mem_storeCell hc with hc | ⟨rfl, -⟩
        · exact hk c hc
        · show k < a
          omega

/-- Looking up after a store: the stored byte at its address, the old byte elsewhere. -/
theorem lookupCell_storeCell {cells : List Host.Cell} (h : cellsWf cells) (a a' : Nat) (b : Byte) :
    lookupCell (storeCell cells a b) a' = if a' = a then b else lookupCell cells a' := by
  obtain ⟨hs, -⟩ := h
  induction cells with
  | nil =>
    by_cases hb : b = 0#8
    · simp [storeCell, hb, lookupCell]
    · by_cases h : a' = a
      · simp [storeCell, hb, lookupCell, h]
      · simp [storeCell, hb, lookupCell, h, Ne.symm h]
  | cons d rest ih =>
    obtain ⟨k, x⟩ := d
    obtain ⟨hk, hrest⟩ := List.pairwise_cons.mp hs
    unfold storeCell
    split
    · rename_i hlt
      have hz : lookupCell ((k, x) :: rest) a = 0#8 := by
        refine lookupCell_eq_zero_of_lt fun c hc => ?_
        rcases List.mem_cons.mp hc with rfl | hc
        · exact hlt
        · exact Nat.lt_trans hlt (hk c hc)
      split
      · rename_i hb
        split
        · rename_i e; rw [e, hz, hb]
        · rfl
      · rw [lookupCell]
        by_cases e : a' = a
        · simp [e]
        · simp [e, Ne.symm e]
    · split
      · rename_i _ heq
        subst heq
        have hz : lookupCell rest a = 0#8 := lookupCell_eq_zero_of_lt fun c hc => hk c hc
        by_cases e : a' = a
        · subst e
          split
          · rename_i hb; simp [hz, hb]
          · simp [lookupCell]
        · split <;> simp [lookupCell, Ne.symm e]
      · rw [lookupCell, lookupCell, ih hrest]
        by_cases e : k = a'
        · have : a' ≠ a := by omega
          simp [e, this]
        · simp [e]

/-- Equal lookups at every address make canonical cell lists equal: the form is canonical. -/
theorem cells_ext {xs ys : List Host.Cell} (hx : cellsWf xs) (hy : cellsWf ys)
    (h : ∀ a, lookupCell xs a = lookupCell ys a) : xs = ys := by
  induction xs generalizing ys with
  | nil =>
    cases ys with
    | nil => rfl
    | cons d rest =>
      obtain ⟨k, y⟩ := d
      exact absurd (by simpa [lookupCell] using (h k).symm) (hy.2 (k, y) (by simp))
  | cons c xs ih =>
    obtain ⟨j, x⟩ := c
    obtain ⟨hj, hxs⟩ := List.pairwise_cons.mp hx.1
    have hx0 : x ≠ 0#8 := hx.2 (j, x) (by simp)
    cases ys with
    | nil => exact absurd (by simpa [lookupCell] using h j) hx0
    | cons d ys =>
      obtain ⟨k, y⟩ := d
      obtain ⟨hk, hys⟩ := List.pairwise_cons.mp hy.1
      have hy0 : y ≠ 0#8 := hy.2 (k, y) (by simp)
      have below : ∀ {a : Nat} {zs : List Host.Cell} {m : Nat}, (∀ c ∈ zs, m < c.1) → a ≤ m →
          lookupCell zs a = 0#8 :=
        fun hz ha => lookupCell_eq_zero_of_lt fun c hc => Nat.lt_of_le_of_lt ha (hz c hc)
      have hjk : j = k := by
        rcases Nat.lt_trichotomy j k with hlt | he | hlt
        · have := h j
          simp only [lookupCell, if_neg (by omega : ¬ k = j), if_true] at this
          exact absurd (this.trans (below hk (by omega))) hx0
        · exact he
        · have := h k
          simp only [lookupCell, if_neg (by omega : ¬ j = k), if_true] at this
          exact absurd (this.symm.trans (below hj (by omega))) hy0
      subst hjk
      have hxy : x = y := by simpa [lookupCell] using h j
      subst hxy
      refine congrArg _ (ih ⟨hxs, fun c hc => hx.2 c (by simp [hc])⟩
        ⟨hys, fun c hc => hy.2 c (by simp [hc])⟩ fun a => ?_)
      by_cases e : j = a
      · subst e
        rw [below hj (Nat.le_refl _), below hk (Nat.le_refl _)]
      · simpa [lookupCell, e] using h a

/-! ### Memories -/

theorem Memory.wf.cells {m : Memory} (h : m.wf) : cellsWf m.cells :=
  ⟨h.2.2.1, fun c hc => (h.2.2.2 c hc).2⟩

@[simp] theorem setByte_size (m : Memory) (a : Nat) (b : Byte) : (m.setByte a b).size = m.size := by
  unfold Memory.setByte; split <;> rfl

/-- One byte stored keeps the canonical form. -/
theorem setByte_wf {m : Memory} (h : m.wf) (a : Nat) (b : Byte) : (m.setByte a b).wf := by
  unfold Memory.setByte
  split
  · rename_i ha
    have hc := storeCell_wf (a := a) (b := b) h.cells
    refine ⟨h.1, h.2.1, hc.1, fun c hm => ⟨?_, hc.2 c hm⟩⟩
    rcases mem_storeCell hm with hm | ⟨rfl, -⟩
    · exact (h.2.2.2 c hm).1
    · exact ha
  · exact h

/-- Reading a byte after one is stored. -/
theorem byteAt_setByte {m : Memory} (h : m.wf) {a : Nat} (ha : a < m.size) (a' : Nat) (b : Byte) :
    (m.setByte a b).byteAt a' = if a' = a then b else m.byteAt a' := by
  simp only [Memory.setByte, if_pos ha, Memory.byteAt]
  exact lookupCell_storeCell h.cells a a' b

@[simp] theorem setBytes_size (m : Memory) (l : List (Long × Byte)) : (m.setBytes l).size = m.size := by
  induction l generalizing m with
  | nil => rfl
  | cons p l ih => exact (ih _).trans (setByte_size m _ _)

theorem setBytes_wf {m : Memory} (h : m.wf) (l : List (Long × Byte)) : (m.setBytes l).wf := by
  induction l generalizing m with
  | nil => exact h
  | cons p l ih => exact ih (setByte_wf h _ _)

/-- An address none of the stored ones keeps its byte. -/
theorem byteAt_setBytes_other {m : Memory} (h : m.wf) {l : List (Long × Byte)} {a : Nat}
    (hl : ∀ p ∈ l, p.1.toNat < m.size ∧ p.1.toNat ≠ a) :
    (m.setBytes l).byteAt a = m.byteAt a := by
  induction l generalizing m with
  | nil => rfl
  | cons p l ih =>
    have hp := hl p (by simp)
    rw [Memory.setBytes, ih (setByte_wf h _ _) (fun q hq => by simpa using hl q (by simp [hq])),
      byteAt_setByte h hp.1, if_neg (Ne.symm hp.2)]

/-- An address stored once holds the byte stored there. -/
theorem byteAt_setBytes_of_mem {m : Memory} (h : m.wf) {l : List (Long × Byte)} {p : Long × Byte}
    (hl : ∀ q ∈ l, q.1.toNat < m.size) (hd : (l.map fun q => q.1.toNat).Nodup) (hp : p ∈ l) :
    (m.setBytes l).byteAt p.1.toNat = p.2 := by
  induction l generalizing m with
  | nil => simp at hp
  | cons q l ih =>
    have hq := hl q (by simp)
    have hd' := List.nodup_cons.mp (by simpa using hd : (q.1.toNat :: l.map fun q => q.1.toNat).Nodup)
    rcases List.mem_cons.mp hp with rfl | hp
    · rw [Memory.setBytes, byteAt_setBytes_other (setByte_wf h _ _), byteAt_setByte h hq, if_pos rfl]
      intro r hr
      refine ⟨by simpa using hl r (by simp [hr]), fun e => hd'.1 ?_⟩
      exact List.mem_map.mpr ⟨r, hr, e⟩
    · exact ih (setByte_wf h _ _) (fun r hr => by simpa using hl r (by simp [hr])) hd'.2 hp

@[simp] theorem putBytes_size (m : Memory) (a : Nat) (bs : List Byte) :
    (m.putBytes a bs).size = m.size := by
  induction bs generalizing m a with
  | nil => rfl
  | cons b bs ih => exact (ih _ _).trans (setByte_size m a b)

theorem putBytes_wf {m : Memory} (h : m.wf) (a : Nat) (bs : List Byte) : (m.putBytes a bs).wf := by
  induction bs generalizing m a with
  | nil => exact h
  | cons b bs ih => exact ih (setByte_wf h a b) _

/-- The bytes put at consecutive addresses are read back, every other address keeps its byte. -/
theorem byteAt_putBytes {m : Memory} (h : m.wf) {bs : List Byte} {a : Nat}
    (ha : a + bs.length ≤ m.size) (a' : Nat) :
    (m.putBytes a bs).byteAt a' =
      if a ≤ a' ∧ a' < a + bs.length then bs.getD (a' - a) 0#8 else m.byteAt a' := by
  induction bs generalizing m a with
  | nil => simp [Memory.putBytes]
  | cons b bs ih =>
    have hlen : (b :: bs).length = bs.length + 1 := rfl
    rw [Memory.putBytes, ih (setByte_wf h a b) (by rw [setByte_size]; omega),
      byteAt_setByte h (by omega)]
    by_cases e : a' = a
    · subst e; simp
    · by_cases hin : a + 1 ≤ a' ∧ a' < a + 1 + bs.length
      · rw [if_pos hin, if_pos (by omega), show a' - a = (a' - (a + 1)) + 1 by omega]
        rfl
      · rw [if_neg hin, if_neg e, if_neg (by omega)]

/-! ### MemRead and MemWrite -/

theorem mem_accessAddresses {addr x : Long} {n : Nat} :
    x ∈ accessAddresses addr n ↔ ∃ i < n, addr + BitVec.ofNat 32 i = x := by
  simp [accessAddresses]

/-- No address of an access is outside the memory exactly when the access is accessible. -/
theorem firstOutside_eq_none {m : Memory} {addr : Long} {n : Nat} :
    m.firstOutside (accessAddresses addr n) = none ↔ m.accessible addr n := by
  simp only [Memory.firstOutside, List.find?_eq_none, mem_accessAddresses, decide_eq_true_eq]
  constructor
  · intro h i hi
    exact Nat.lt_of_not_le (h _ ⟨i, hi, rfl⟩)
  · rintro h _ ⟨i, hi, rfl⟩
    exact Nat.not_le.mpr (h i hi)

/-- The first missing byte of an access is the address its fault carries. -/
theorem firstOutside_eq_some {m : Memory} {addr : Long} {n i : Nat} (h : m.firstMissing addr n i) :
    m.firstOutside (accessAddresses addr n) = some (addr + BitVec.ofNat 32 i) := by
  obtain ⟨hi, hout, hbefore⟩ := h
  rw [Memory.firstOutside, List.find?_eq_some_iff_getElem]
  refine ⟨by simpa using hout, i, by simpa [accessAddresses] using hi, by simp [accessAddresses],
    fun j hj => ?_⟩
  simpa [accessAddresses] using hbefore j hj

/-- An access that is not accessible has a first missing byte. -/
theorem exists_firstMissing {m : Memory} {addr : Long} {n : Nat} (h : ¬ m.accessible addr n) :
    ∃ i, m.firstMissing addr n i := by
  induction n with
  | zero => exact absurd (fun i hi => absurd hi (Nat.not_lt_zero i)) h
  | succ n ih =>
    by_cases hn : m.accessible addr n
    · refine ⟨n, by omega, ?_, hn⟩
      refine Nat.le_of_not_lt fun hlt => h fun i hi => ?_
      rcases Nat.lt_succ_iff_lt_or_eq.mp hi with hi | rfl
      · exact hn i hi
      · exact hlt
    · obtain ⟨i, hi, ho, hb⟩ := ih hn
      exact ⟨i, by omega, ho, hb⟩

/-- A read of bytes that exist: the big-endian value of those bytes. -/
theorem read_of_accessible {m : Memory} {w : Width} {addr : Long} (h : m.accessible addr w.bytes) :
    m.read w addr = .ok (BitVec.ofNat w.bits
      (bigEndian ((accessAddresses addr w.bytes).map fun a => m.byteAt a.toNat))) := by
  rw [Memory.read, firstOutside_eq_none.mpr h]

/-- A read that meets a missing byte: the fault of the first one. -/
theorem read_of_firstMissing {m : Memory} {w : Width} {addr : Long} {i : Nat}
    (h : m.firstMissing addr w.bytes i) :
    m.read w addr = .error (.accessFault (addr + BitVec.ofNat 32 i)) := by
  rw [Memory.read, firstOutside_eq_some h]

/-- What a read can do, once: the value of bytes that exist, or the fault of the first missing one. -/
theorem read_cases (m : Memory) (w : Width) (addr : Long) :
    (m.accessible addr w.bytes ∧ ∃ v, m.read w addr = .ok v) ∨
    ∃ i, m.firstMissing addr w.bytes i ∧
      m.read w addr = .error (.accessFault (addr + BitVec.ofNat 32 i)) := by
  by_cases h : m.accessible addr w.bytes
  · exact .inl ⟨h, _, read_of_accessible h⟩
  · obtain ⟨i, hi⟩ := exists_firstMissing h
    exact .inr ⟨i, hi, read_of_firstMissing hi⟩

/-- A write to bytes that exist keeps the size and the canonical form. -/
theorem write_keeps {m m' : Memory} {w : Width} {addr : Long} {v : Value w}
    (h : m.write addr v = .ok m') : m'.size = m.size ∧ (m.wf → m'.wf) := by
  unfold Memory.write at h
  split at h
  · cases h
  · cases h
    exact ⟨setBytes_size _ _, fun hm => setBytes_wf hm _⟩

/-- Every write of the host keeps the canonical form of memory. -/
theorem hostAction_keeps_wf {s : State} (h : s.mem.wf) (x : HostAction) : (x.apply s).mem.wf := by
  cases x with
  | writeByte a b => exact setByte_wf h a b
  | writeD n v => exact h
  | writeA n v => exact h
  | writePc v => exact h
  | writeN b => exact h
  | writeZ b => exact h
  | writeV b => exact h
  | writeC b => exact h
  | writeX b => exact h

end Sys2Proof.Machine
end

