-- ==== Sys2Proof/Laws/State.lean ====
section
/-! SUPPORT. One lemma per field per update of the state. -/

namespace Sys2Proof.Machine

section SetD
variable (s : State) (n : Fin 8) (v : Long)
@[simp] theorem setD_d : (s.setD n v).d = s.d.set n v := rfl
@[simp] theorem setD_a : (s.setD n v).a = s.a := rfl
@[simp] theorem setD_pc : (s.setD n v).pc = s.pc := rfl
@[simp] theorem setD_flagN : (s.setD n v).flagN = s.flagN := rfl
@[simp] theorem setD_flagZ : (s.setD n v).flagZ = s.flagZ := rfl
@[simp] theorem setD_flagV : (s.setD n v).flagV = s.flagV := rfl
@[simp] theorem setD_flagC : (s.setD n v).flagC = s.flagC := rfl
@[simp] theorem setD_flagX : (s.setD n v).flagX = s.flagX := rfl
@[simp] theorem setD_mem : (s.setD n v).mem = s.mem := rfl
end SetD

section SetA
variable (s : State) (n : Fin 8) (v : Long)
@[simp] theorem setA_d : (s.setA n v).d = s.d := rfl
@[simp] theorem setA_a : (s.setA n v).a = s.a.set n v := rfl
@[simp] theorem setA_pc : (s.setA n v).pc = s.pc := rfl
@[simp] theorem setA_flagN : (s.setA n v).flagN = s.flagN := rfl
@[simp] theorem setA_flagZ : (s.setA n v).flagZ = s.flagZ := rfl
@[simp] theorem setA_flagV : (s.setA n v).flagV = s.flagV := rfl
@[simp] theorem setA_flagC : (s.setA n v).flagC = s.flagC := rfl
@[simp] theorem setA_flagX : (s.setA n v).flagX = s.flagX := rfl
@[simp] theorem setA_mem : (s.setA n v).mem = s.mem := rfl
end SetA

section Advance
variable (s : State) (words : Nat)
@[simp] theorem advance_d : (s.advance words).d = s.d := rfl
@[simp] theorem advance_a : (s.advance words).a = s.a := rfl
@[simp] theorem advance_pc : (s.advance words).pc = s.pc + BitVec.ofNat 32 (2 * words) := rfl
@[simp] theorem advance_flagN : (s.advance words).flagN = s.flagN := rfl
@[simp] theorem advance_flagZ : (s.advance words).flagZ = s.flagZ := rfl
@[simp] theorem advance_flagV : (s.advance words).flagV = s.flagV := rfl
@[simp] theorem advance_flagC : (s.advance words).flagC = s.flagC := rfl
@[simp] theorem advance_flagX : (s.advance words).flagX = s.flagX := rfl
@[simp] theorem advance_mem : (s.advance words).mem = s.mem := rfl
end Advance

section WriteFlags
variable (s : State) (f : Flags)
@[simp] theorem writeFlags_d : (s.writeFlags f).d = s.d := rfl
@[simp] theorem writeFlags_a : (s.writeFlags f).a = s.a := rfl
@[simp] theorem writeFlags_pc : (s.writeFlags f).pc = s.pc := rfl
@[simp] theorem writeFlags_flagN : (s.writeFlags f).flagN = f.n := rfl
@[simp] theorem writeFlags_flagZ : (s.writeFlags f).flagZ = f.z := rfl
@[simp] theorem writeFlags_flagV : (s.writeFlags f).flagV = f.v := rfl
@[simp] theorem writeFlags_flagC : (s.writeFlags f).flagC = f.c := rfl
@[simp] theorem writeFlags_flagX : (s.writeFlags f).flagX = s.flagX := rfl
@[simp] theorem writeFlags_mem : (s.writeFlags f).mem = s.mem := rfl
end WriteFlags

/-- Reading back the address register just written. -/
@[simp] theorem getA_setA_same (s : State) (n : Fin 8) (v : Long) : (s.setA n v).getA n = v := by
  simp [State.getA]

/-- Writing one address register leaves the others. -/
theorem getA_setA_other (s : State) {n k : Fin 8} (v : Long) (h : n ≠ k) :
    (s.setA n v).getA k = s.getA k := by
  have h' : (n : Nat) ≠ k := fun e => h (Fin.ext e)
  simp [State.getA, h']

/-- Reading back the data register just written. -/
@[simp] theorem getD_setD_same (s : State) (n : Fin 8) (v : Long) : (s.setD n v).getD n = v := by
  simp [State.getD]

/-- Writing one data register leaves the others. -/
theorem getD_setD_other (s : State) {n k : Fin 8} (v : Long) (h : n ≠ k) :
    (s.setD n v).getD k = s.getD k := by
  have h' : (n : Nat) ≠ k := fun e => h (Fin.ext e)
  simp [State.getD, h']

end Sys2Proof.Machine
end

