-- ==== Sys2Proof/Laws/Operands.lean ====
section
/-! SUPPORT. What the resolver can do, once; the provers cite these instead of unfolding it. -/

namespace Sys2Proof.Machine

/-- The state an operand's register side effect leaves (R126, R127). -/
def afterStep {w : Width} (op : Operand w) (s : State) : State :=
  match op with
  | .postincrement n => s.setA n (s.getA n + autoStep n w)
  | .predecrement n => s.setA n (s.getA n - autoStep n w)
  | .dataRegisterDirect _ => s
  | .addressRegisterDirect _ => s
  | .addressRegisterIndirect _ => s
  | .indirectWithDisplacement _ _ => s
  | .absoluteShort _ => s
  | .absoluteLong _ => s
  | .programCounterDisplacement _ => s
  | .immediate _ => s

/-- The state in a memory place is the one the side effect leaves. -/
theorem locate_memory {w : Width} {op : Operand w} {s after : State} {ea : Long}
    (h : locate op s = .memory ea after) : after = afterStep op s := by
  cases op <;> simp only [locate, Place.memory.injEq, reduceCtorEq] at h <;>
    exact h.2.symm

/-- The places that are not memory belong to modes with no side effect. -/
theorem afterStep_of_not_memory {w : Width} {op : Operand w} {s : State}
    (h : ∀ ea after, locate op s ≠ .memory ea after) : afterStep op s = s := by
  cases op <;> first | rfl | exact absurd rfl (h _ _)

/-- What a resolution can do, once: it answers a value and the state its side effect leaves, or the fault of the
first missing byte of its access. -/
theorem resolve_cases {w : Width} (op : Operand w) (s : State) :
    (readable op s = true ∧ ∃ v, resolve op s = .ok (v, afterStep op s)) ∨
    (readable op s = false ∧ ∃ ea i, locate op s = .memory ea (afterStep op s) ∧
      s.mem.firstMissing ea w.bytes i ∧
      resolve op s = .error (.accessFault (ea + BitVec.ofNat 32 i))) := by
  unfold readable resolve
  cases hl : locate op s with
  | dataRegister n =>
    exact .inl ⟨rfl, _, by rw [afterStep_of_not_memory (fun _ _ => by simp [hl])]⟩
  | addressRegister n =>
    exact .inl ⟨rfl, _, by rw [afterStep_of_not_memory (fun _ _ => by simp [hl])]⟩
  | literal value =>
    exact .inl ⟨rfl, _, by rw [afterStep_of_not_memory (fun _ _ => by simp [hl])]⟩
  | memory ea after =>
    obtain rfl := locate_memory hl
    rcases read_cases s.mem w ea with ⟨hacc, v, hv⟩ | ⟨i, hi, hf⟩
    · exact .inl ⟨by simpa using hacc, v, by simp [hv]⟩
    · refine .inr ⟨?_, ea, i, rfl, hi, by simp [hf]⟩
      simp only [decide_eq_false_iff_not]
      exact fun hacc => absurd (hacc i hi.1) (Nat.not_lt.mpr hi.2.1)

/-- A resolution that answers leaves the state its side effect leaves (R121). -/
theorem resolve_ok_state {w : Width} {op : Operand w} {s s' : State} {v : Value w}
    (h : resolve op s = .ok (v, s')) : s' = afterStep op s := by
  rcases resolve_cases op s with ⟨-, u, hu⟩ | ⟨-, ea, i, -, -, hf⟩
  · rw [hu] at h
    exact (congrArg Prod.snd (Except.ok.inj h)).symm
  · rw [hf] at h; cases h

/-- A resolution faults only with `AccessFault` (R121). -/
theorem resolve_error {w : Width} {op : Operand w} {s : State} {f : Fault}
    (h : resolve op s = .error f) : ∃ a, f = .accessFault a := by
  rcases resolve_cases op s with ⟨-, u, hu⟩ | ⟨-, ea, i, -, -, hf⟩
  · rw [hu] at h; cases h
  · rw [hf] at h; exact ⟨_, (Except.error.inj h).symm⟩

section AfterStep
variable {w : Width} (op : Operand w) (s : State)
@[simp] theorem afterStep_d : (afterStep op s).d = s.d := by cases op <;> rfl
@[simp] theorem afterStep_pc : (afterStep op s).pc = s.pc := by cases op <;> rfl
@[simp] theorem afterStep_flagN : (afterStep op s).flagN = s.flagN := by cases op <;> rfl
@[simp] theorem afterStep_flagZ : (afterStep op s).flagZ = s.flagZ := by cases op <;> rfl
@[simp] theorem afterStep_flagV : (afterStep op s).flagV = s.flagV := by cases op <;> rfl
@[simp] theorem afterStep_flagC : (afterStep op s).flagC = s.flagC := by cases op <;> rfl
@[simp] theorem afterStep_flagX : (afterStep op s).flagX = s.flagX := by cases op <;> rfl
@[simp] theorem afterStep_mem : (afterStep op s).mem = s.mem := by cases op <;> rfl
end AfterStep

/-- Only the stepped address register changes. -/
theorem afterStep_getA_other {w : Width} {op : Operand w} {k : Fin 8} (s : State)
    (h : stepped op ≠ some k) : (afterStep op s).getA k = s.getA k := by
  cases op with
  | postincrement n => exact getA_setA_other s _ fun e => h (congrArg some e)
  | predecrement n => exact getA_setA_other s _ fun e => h (congrArg some e)
  | dataRegisterDirect n => rfl
  | addressRegisterDirect n => rfl
  | addressRegisterIndirect n => rfl
  | indirectWithDisplacement n disp => rfl
  | absoluteShort addr16 => rfl
  | absoluteLong addr32 => rfl
  | programCounterDisplacement disp => rfl
  | immediate value => rfl

end Sys2Proof.Machine
end

