-- ==== Sys2Proof/Laws/Compare.lean ====
section
/-! SUPPORT. What a compare, and so every instruction, can do, once. -/

namespace Sys2Proof.Machine

/-- Every instruction is the shared compare of its two operands. -/
theorem exec_eq_compareOperands (i : Instr) (s : State) : exec i s = compareOperands i.src i.dst s := by
  cases i <;> rfl

theorem exec_cmp (w : Width) (src : Operand w) (dn : Fin 8) (s : State) :
    exec (Instr.cmp w src dn) s = compareOperands src (.dataRegisterDirect dn) s := by cases w <;> rfl

theorem exec_cmpi (w : Width) (value : Value w) (dst : Operand w) (s : State) :
    exec (Instr.cmpi w value dst) s = compareOperands (.immediate value) dst s := by cases w <;> rfl

/-- What a compare can do, once: it answers the state with the four flags written and `pc` advanced, after
the side effects of both operands, or the `AccessFault` of one of them. -/
theorem compareOperands_cases {w : Width} (src dst : Operand w) (s : State) :
    (∃ sv dv, resolve src s = .ok (sv, afterStep src s) ∧
      resolve dst (afterStep src s) = .ok (dv, afterStep dst (afterStep src s)) ∧
      compareOperands src dst s = .next (((afterStep dst (afterStep src s)).writeFlags
        (subFlags sv dv)).advance (lengthWords src dst))) ∨
    (∃ a, compareOperands src dst s = .fault (.accessFault a)) := by
  unfold compareOperands
  rcases resolve_cases src s with ⟨-, sv, hs⟩ | ⟨-, ea, i, -, -, hs⟩
  · rcases resolve_cases dst (afterStep src s) with ⟨-, dv, hd⟩ | ⟨-, ea, i, -, -, hd⟩
    · exact .inl ⟨sv, dv, hs, hd, by simp [hs, hd]⟩
    · exact .inr ⟨ea + BitVec.ofNat 32 i, by simp [hs, hd]⟩
  · exact .inr ⟨ea + BitVec.ofNat 32 i, by simp [hs]⟩

/-- What a next state of a compare is (the only case of `compareOperands_cases` that answers one). -/
theorem compareOperands_next {w : Width} {src dst : Operand w} {s t : State}
    (h : compareOperands src dst s = .next t) :
    ∃ sv dv, resolve src s = .ok (sv, afterStep src s) ∧
      resolve dst (afterStep src s) = .ok (dv, afterStep dst (afterStep src s)) ∧
      t = ((afterStep dst (afterStep src s)).writeFlags (subFlags sv dv)).advance
        (lengthWords src dst) := by
  rcases compareOperands_cases src dst s with ⟨sv, dv, hs, hd, hn⟩ | ⟨a, ha⟩
  · rw [hn] at h
    exact ⟨sv, dv, hs, hd, (Host.Outcome.next.inj h).symm⟩
  · rw [ha] at h; cases h

/-- A data register is always readable. -/
@[simp] theorem readable_dataRegister {w : Width} (n : Fin 8) (s : State) :
    readable (.dataRegisterDirect n : Operand w) s = true := rfl

/-- A literal is always readable. -/
@[simp] theorem readable_immediate {w : Width} (v : Value w) (s : State) :
    readable (.immediate v : Operand w) s = true := rfl

theorem resolve_dataRegister {w : Width} (n : Fin 8) (s : State) :
    resolve (.dataRegisterDirect n : Operand w) s = .ok (narrow w (s.getD n), s) := rfl

theorem resolve_immediate {w : Width} (v : Value w) (s : State) :
    resolve (.immediate v : Operand w) s = .ok (v, s) := rfl

end Sys2Proof.Machine
end

