-- ==== Sys2Proof/Laws/Decode.lean ====
section
/-! SUPPORT. The encoding: the parameters are consistent (93_implementation_defined.md Part 2), the fields of an opcode
word read back what was put there, words and bytes correspond. -/

namespace Sys2Proof

/-! ### The parameters -/

theorem opmodeWidth_opmodeCode (w : Width) : opmodeWidth (opmodeCode w) = some w := by
  cases w <;> decide

theorem sizeWidth_sizeCode (w : Width) : sizeWidth (sizeCode w) = some w := by cases w <;> decide

/-- A width comes from its own code only. -/
theorem opmodeCode_of_opmodeWidth {b : BitVec 3} {w : Width} (h : opmodeWidth b = some w) :
    opmodeCode w = b := by
  unfold opmodeWidth at h
  repeat' split at h
  all_goals cases h
  all_goals exact Eq.symm (by assumption)

theorem sizeCode_of_sizeWidth {b : BitVec 2} {w : Width} (h : sizeWidth b = some w) :
    sizeCode w = b := by
  unfold sizeWidth at h
  repeat' split at h
  all_goals cases h
  all_goals exact Eq.symm (by assumption)

/-- `EA_CODE` is injective on the ten modes: a mode is found from its own codes, whatever register stands in
a field that holds one. -/
theorem eaMode_codes (t : AddrMode) : ∀ r : BitVec 3, eaMode (modeCode t) ((regCode t).getD r) = some t := by
  cases t <;> decide

/-- A mode found from a code is in the row of that code. -/
theorem codes_of_eaMode {m r : BitVec 3} {t : AddrMode} (h : eaMode m r = some t) :
    modeCode t = m ∧ (regCode t).getD r = r := by
  have := List.find?_some h
  simpa using this

/-- The two tags differ in their top four bits, so no opcode word matches both (R79). -/
theorem tags_differ : tagCmpi.extractLsb' 4 4 ≠ tagCmp := by decide

/-! ### Fields of the opcode words -/

section CmpFields
variable (t : BitVec 4) (a b c d : BitVec 3)
theorem cmpFields_tag : (t ++ a ++ b ++ c ++ d : BitVec 16).extractLsb' 12 4 = t := by
  ext i hi
  simp only [BitVec.getElem_extractLsb', BitVec.getLsbD_append]
  interval_cases i <;> simp
theorem cmpFields_dreg : (t ++ a ++ b ++ c ++ d : BitVec 16).extractLsb' 9 3 = a := by
  ext i hi
  simp only [BitVec.getElem_extractLsb', BitVec.getLsbD_append]
  interval_cases i <;> simp
theorem cmpFields_opmode : (t ++ a ++ b ++ c ++ d : BitVec 16).extractLsb' 6 3 = b := by
  ext i hi
  simp only [BitVec.getElem_extractLsb', BitVec.getLsbD_append]
  interval_cases i <;> simp
theorem cmpFields_mode : (t ++ a ++ b ++ c ++ d : BitVec 16).extractLsb' 3 3 = c := by
  ext i hi
  simp only [BitVec.getElem_extractLsb', BitVec.getLsbD_append]
  interval_cases i <;> simp
theorem cmpFields_reg : (t ++ a ++ b ++ c ++ d : BitVec 16).extractLsb' 0 3 = d := by
  ext i hi
  simp only [BitVec.getElem_extractLsb', BitVec.getLsbD_append]
  interval_cases i <;> simp
end CmpFields

section CmpiFields
variable (t : BitVec 8) (b : BitVec 2) (c d : BitVec 3)
theorem cmpiFields_tag : (t ++ b ++ c ++ d : BitVec 16).extractLsb' 8 8 = t := by
  ext i hi
  simp only [BitVec.getElem_extractLsb', BitVec.getLsbD_append]
  interval_cases i <;> simp
theorem cmpiFields_size : (t ++ b ++ c ++ d : BitVec 16).extractLsb' 6 2 = b := by
  ext i hi
  simp only [BitVec.getElem_extractLsb', BitVec.getLsbD_append]
  interval_cases i <;> simp
theorem cmpiFields_mode : (t ++ b ++ c ++ d : BitVec 16).extractLsb' 3 3 = c := by
  ext i hi
  simp only [BitVec.getElem_extractLsb', BitVec.getLsbD_append]
  interval_cases i <;> simp
theorem cmpiFields_reg : (t ++ b ++ c ++ d : BitVec 16).extractLsb' 0 3 = d := by
  ext i hi
  simp only [BitVec.getElem_extractLsb', BitVec.getLsbD_append]
  interval_cases i <;> simp
end CmpiFields

/-- A 16-bit word is its `CMP` fields put together again. -/
theorem cmpFields_join (x : BitVec 16) :
    (x.extractLsb' 12 4 ++ x.extractLsb' 9 3 ++ x.extractLsb' 6 3 ++ x.extractLsb' 3 3
      ++ x.extractLsb' 0 3 : BitVec 16) = x := by
  ext i hi
  simp only [BitVec.getElem_append, BitVec.getElem_extractLsb']
  interval_cases i <;> simp

/-- A 16-bit word is its `CMPI` fields put together again. -/
theorem cmpiFields_join (x : BitVec 16) :
    (x.extractLsb' 8 8 ++ x.extractLsb' 6 2 ++ x.extractLsb' 3 3 ++ x.extractLsb' 0 3 : BitVec 16)
      = x := by
  ext i hi
  simp only [BitVec.getElem_append, BitVec.getElem_extractLsb']
  interval_cases i <;> simp

/-- The tag of a `CMP` word, which is also its top four bits of eight. -/
theorem extract_tag4_of_tag8 (x : BitVec 16) :
    (x.extractLsb' 8 8).extractLsb' 4 4 = x.extractLsb' 12 4 := by
  ext i hi
  simp only [BitVec.getElem_extractLsb', BitVec.getLsbD_extractLsb']
  interval_cases i <;> simp

/-! ### Words and bytes -/

theorem high_low_join (x : Word) : (x.extractLsb' 8 8 ++ x.extractLsb' 0 8 : BitVec 16) = x := by
  ext i hi
  simp only [BitVec.getElem_append, BitVec.getElem_extractLsb']
  interval_cases i <;> simp

theorem long_high_low_join (x : Long) :
    (x.extractLsb' 16 16 ++ x.extractLsb' 0 16 : BitVec 32) = x := by
  ext i hi
  simp only [BitVec.getElem_append, BitVec.getElem_extractLsb']
  interval_cases i <;> simp

theorem append_high (a b : Byte) : (a ++ b : BitVec 16).extractLsb' 8 8 = a :=
  BitVec.extractLsb'_append_eq_left

theorem append_low (a b : Byte) : (a ++ b : BitVec 16).extractLsb' 0 8 = b :=
  BitVec.extractLsb'_append_eq_right

theorem long_append_high (a b : Word) : (a ++ b : BitVec 32).extractLsb' 16 16 = a :=
  BitVec.extractLsb'_append_eq_left

theorem long_append_low (a b : Word) : (a ++ b : BitVec 32).extractLsb' 0 16 = b :=
  BitVec.extractLsb'_append_eq_right

theorem length_bytesOfWords (xs : List Word) : (bytesOfWords xs).length = 2 * xs.length := by
  induction xs with
  | nil => rfl
  | cons x xs ih => simp only [bytesOfWords, List.length_cons, ih]; omega

/-- Word `k` of the bytes of words is the `k`-th word, whatever bytes follow. -/
theorem wordAt_bytesOfWords (xs : List Word) (rest : List Byte) (k : Nat) (hk : k < xs.length) :
    wordAt (bytesOfWords xs ++ rest) k = xs[k] := by
  induction xs generalizing k with
  | nil => simp at hk
  | cons x xs ih =>
    cases k with
    | zero => exact high_low_join x
    | succ k =>
      have : wordAt (bytesOfWords (x :: xs) ++ rest) (k + 1) = wordAt (bytesOfWords xs ++ rest) k := by
        simp [wordAt, bytesOfWords, Nat.mul_add]
      rw [this, ih k (by simpa using hk)]
      rfl

/-- A word lies within the first bytes of a list when both its bytes do. -/
theorem wordAt_append (bs rest : List Byte) (k : Nat) (h : 2 * k + 1 < bs.length) :
    wordAt (bs ++ rest) k = wordAt bs k := by
  unfold wordAt
  rw [List.getD_append _ _ _ _ h, List.getD_append _ _ _ _ (by omega : 2 * k < bs.length)]

/-! ### What the decoders can answer -/

/-- What `decodeCmp` accepts, once: a `CMP` tag, a width, a mode, and enough bytes. -/
theorem decodeCmp_ok {b : List Byte} {i : Instr} (h : decodeCmp b = .ok i) :
    ∃ (w : Width) (mode : AddrMode),
      (wordAt b 0).extractLsb' 12 4 = tagCmp ∧
      opmodeWidth ((wordAt b 0).extractLsb' 6 3) = some w ∧
      eaMode ((wordAt b 0).extractLsb' 3 3) ((wordAt b 0).extractLsb' 0 3) = some mode ∧
      2 + 2 * mode.ext w ≤ b.length ∧
      i = Instr.cmp w (operandOf mode ((wordAt b 0).extractLsb' 0 3) w b 1)
        ((wordAt b 0).extractLsb' 9 3).toFin := by
  unfold decodeCmp at h
  split at h
  · cases h
  · split at h
    · cases h
    · rename_i htag
      split at h
      · cases h
      · rename_i w hw
        split at h
        · cases h
        · rename_i mode hm
          split at h
          · cases h
          · rename_i hlen
            exact ⟨w, mode, by simpa using htag, hw, hm, by omega, by simpa using h.symm⟩

/-- What `decodeCmpi` accepts, once: a `CMPI` tag, a width, a legal destination mode, and enough bytes. -/
theorem decodeCmpi_ok {b : List Byte} {i : Instr} (h : decodeCmpi b = .ok i) :
    ∃ (w : Width) (mode : AddrMode),
      (wordAt b 0).extractLsb' 8 8 = tagCmpi ∧
      sizeWidth ((wordAt b 0).extractLsb' 6 2) = some w ∧
      eaMode ((wordAt b 0).extractLsb' 3 3) ((wordAt b 0).extractLsb' 0 3) = some mode ∧
      mode.cmpiDestination = true ∧
      2 + 2 * AddrMode.immediate.ext w + 2 * mode.ext w ≤ b.length ∧
      i = Instr.cmpi w (immediateAt b 1 w)
        (operandOf mode ((wordAt b 0).extractLsb' 0 3) w b (1 + AddrMode.immediate.ext w)) := by
  unfold decodeCmpi at h
  split at h
  · cases h
  · split at h
    · cases h
    · rename_i htag
      split at h
      · cases h
      · split at h
        · cases h
        · rename_i w hw
          split at h
          · cases h
          · rename_i mode hm
            split at h
            · cases h
            · rename_i hdst
              split at h
              · cases h
              · rename_i hlen
                exact ⟨w, mode, by simpa using htag, hw, hm, by simpa using hdst, by omega,
                  by simpa using h.symm⟩

/-- What the dispatcher accepts, once: one of the two families accepts it. -/
theorem decode_ok {b : List Byte} {i : Instr} (h : decode b = .ok i) :
    decodeCmpi b = .ok i ∨ (decodeCmpi b = .error .noMatch ∧ decodeCmp b = .ok i) := by
  unfold decode at h
  split at h
  · rename_i hi
    exact .inl (hi.trans h)
  · cases h
  · cases h
  · rename_i hn
    exact .inr ⟨hn, h⟩

/-- A word with the `CMP` tag is turned away by the `CMPI` probe as no match. -/
theorem decodeCmpi_noMatch {b : List Byte} (hlen : 2 ≤ b.length)
    (h : (wordAt b 0).extractLsb' 8 8 ≠ tagCmpi) : decodeCmpi b = .error .noMatch := by
  rw [decodeCmpi, if_neg (by omega), if_pos h]

theorem decode_of_cmp_tag {b : List Byte} (hlen : 2 ≤ b.length)
    (h : (wordAt b 0).extractLsb' 12 4 = tagCmp) : decode b = decodeCmp b := by
  have : (wordAt b 0).extractLsb' 8 8 ≠ tagCmpi := fun e =>
    tags_differ (by rw [← e, extract_tag4_of_tag8, h])
  rw [decode, decodeCmpi_noMatch hlen this]

/-- The mode of the operand `operandOf` builds is the mode it is given. -/
theorem mode_operandOf (t : AddrMode) (r : BitVec 3) (w : Width) (b : List Byte) (j : Nat) :
    (operandOf t r w b j).mode = t := by cases t <;> rfl

/-! ### Lengths -/

/-- No operand has more than two extension words (R71). -/
theorem ext_le_two (t : AddrMode) (w : Width) : t.ext w ≤ 2 := by cases t <;> cases w <;> decide

/-- An immediate has at least one extension word (R71). -/
theorem one_le_ext_immediate (w : Width) : 1 ≤ AddrMode.immediate.ext w := by cases w <;> decide

theorem length_immediateWords {w : Width} (v : Value w) :
    (immediateWords w v).length = AddrMode.immediate.ext w := by cases w <;> rfl

theorem length_extWords {w : Width} (op : Operand w) : (extWords op).length = op.mode.ext w := by
  cases op <;> first | rfl | exact length_immediateWords _

theorem length_encodeWords (i : Instr) : (encodeWords i).length = i.lengthWords := by
  cases i with
  | cmpB src dn => exact congrArg (· + 1) (length_extWords src) |>.trans (Nat.add_comm _ _)
  | cmpW src dn => exact congrArg (· + 1) (length_extWords src) |>.trans (Nat.add_comm _ _)
  | cmpL src dn => exact congrArg (· + 1) (length_extWords src) |>.trans (Nat.add_comm _ _)
  | cmpiB value dst =>
    simp [encodeWords, cmpiWords, length_extWords, length_immediateWords, Instr.lengthWords,
      lengthWords, Instr.src, Instr.dst, Operand.mode, Instr.width]; omega
  | cmpiW value dst =>
    simp [encodeWords, cmpiWords, length_extWords, length_immediateWords, Instr.lengthWords,
      lengthWords, Instr.src, Instr.dst, Operand.mode, Instr.width]; omega
  | cmpiL value dst =>
    simp [encodeWords, cmpiWords, length_extWords, length_immediateWords, Instr.lengthWords,
      lengthWords, Instr.src, Instr.dst, Operand.mode, Instr.width]; omega

/-- The length of the instruction `decodeCmp` builds. -/
theorem lengthWords_cmp (w : Width) (src : Operand w) (dn : Fin 8) :
    (Instr.cmp w src dn).lengthWords = 1 + src.mode.ext w := by cases w <;> rfl

/-- The length of the instruction `decodeCmpi` builds. -/
theorem lengthWords_cmpi (w : Width) (value : Value w) (dst : Operand w) :
    (Instr.cmpi w value dst).lengthWords = 1 + AddrMode.immediate.ext w + dst.mode.ext w := by
  cases w <;> rfl

/-- A decoded instruction lies within the bytes it was decoded from. -/
theorem decode_ok_length {b : List Byte} {i : Instr} (h : decode b = .ok i) :
    2 * i.lengthWords ≤ b.length := by
  rcases decode_ok h with h | ⟨-, h⟩
  · obtain ⟨w, mode, -, -, -, -, hlen, rfl⟩ := decodeCmpi_ok h
    rw [lengthWords_cmpi, mode_operandOf]; omega
  · obtain ⟨w, mode, -, -, -, hlen, rfl⟩ := decodeCmp_ok h
    rw [lengthWords_cmp, mode_operandOf]; omega

/-! ### Decoding words that were encoded -/

/-- An instruction is a `CMP` or a `CMPI` of some width. -/
theorem instr_cases (i : Instr) :
    (∃ w src dn, i = Instr.cmp w src dn) ∨ ∃ w value dst, i = Instr.cmpi w value dst := by
  cases i with
  | cmpB src dn => exact .inl ⟨.byte, src, dn, rfl⟩
  | cmpW src dn => exact .inl ⟨.word, src, dn, rfl⟩
  | cmpL src dn => exact .inl ⟨.long, src, dn, rfl⟩
  | cmpiB value dst => exact .inr ⟨.byte, value, dst, rfl⟩
  | cmpiW value dst => exact .inr ⟨.word, value, dst, rfl⟩
  | cmpiL value dst => exact .inr ⟨.long, value, dst, rfl⟩

theorem encodeWords_cmp (w : Width) (src : Operand w) (dn : Fin 8) :
    encodeWords (Instr.cmp w src dn) = cmpOpcode src dn :: extWords src := by cases w <;> rfl

theorem encodeWords_cmpi (w : Width) (value : Value w) (dst : Operand w) :
    encodeWords (Instr.cmpi w value dst)
      = cmpiOpcode dst :: (immediateWords w value ++ extWords dst) := by cases w <;> rfl

theorem wf_cmp (w : Width) (src : Operand w) (dn : Fin 8) : (Instr.cmp w src dn).wf = true := by
  cases w <;> rfl

theorem wf_cmpi (w : Width) (value : Value w) (dst : Operand w) :
    (Instr.cmpi w value dst).wf = dst.mode.cmpiDestination := by cases w <;> rfl

theorem toFin_ofNat_three (n : Fin 8) : (BitVec.ofNat 3 n.val).toFin = n :=
  Fin.ext (Nat.mod_eq_of_lt n.isLt)

/-- The mode of an operand is found from its own fields. -/
theorem eaMode_fields {w : Width} (op : Operand w) :
    eaMode (modeCode op.mode) (regField op) = some op.mode := by
  have h : (regCode op.mode).getD (regField op) = regField op := by
    unfold regField; cases regCode op.mode <;> rfl
  exact h ▸ eaMode_codes op.mode (regField op)

/-- An immediate is read back from its own words. -/
theorem immediateAt_of_words {w : Width} (value : Value w) (b : List Byte) (j : Nat)
    (h : ∀ k (hk : k < (immediateWords w value).length),
      wordAt b (j + k) = (immediateWords w value)[k]) : immediateAt b j w = value := by
  cases w with
  | byte =>
    have h0 := h 0 (by simp [immediateWords])
    simp only [immediateWords, Nat.add_zero, List.getElem_cons_zero] at h0
    rw [immediateAt, h0]
    exact append_low 0#8 value
  | word => exact h 0 (by simp [immediateWords])
  | long =>
    have h0 := h 0 (by simp [immediateWords])
    have h1 := h 1 (by simp [immediateWords])
    simp only [immediateWords, Nat.add_zero, List.getElem_cons_zero, List.getElem_cons_succ] at h0 h1
    rw [immediateAt, h0, h1]
    exact long_high_low_join value

/-- An operand is read back from its own fields and words. -/
theorem operandOf_of_words {w : Width} (op : Operand w) (b : List Byte) (j : Nat)
    (h : ∀ k (hk : k < (extWords op).length), wordAt b (j + k) = (extWords op)[k]) :
    operandOf op.mode (regField op) w b j = op := by
  cases op with
  | dataRegisterDirect n => exact congrArg Operand.dataRegisterDirect (toFin_ofNat_three n)
  | addressRegisterDirect n => exact congrArg Operand.addressRegisterDirect (toFin_ofNat_three n)
  | addressRegisterIndirect n => exact congrArg Operand.addressRegisterIndirect (toFin_ofNat_three n)
  | postincrement n => exact congrArg Operand.postincrement (toFin_ofNat_three n)
  | predecrement n => exact congrArg Operand.predecrement (toFin_ofNat_three n)
  | indirectWithDisplacement n disp =>
    exact congrArg₂ Operand.indirectWithDisplacement (toFin_ofNat_three n) (h 0 (by simp [extWords]))
  | absoluteShort addr16 => exact congrArg Operand.absoluteShort (h 0 (by simp [extWords]))
  | absoluteLong addr32 =>
    have h0 := h 0 (by simp [extWords])
    have h1 := h 1 (by simp [extWords])
    simp only [extWords, Nat.add_zero, List.getElem_cons_zero, List.getElem_cons_succ] at h0 h1
    simp only [operandOf, Operand.mode, h0, h1]
    exact congrArg Operand.absoluteLong (long_high_low_join addr32)
  | programCounterDisplacement disp =>
    exact congrArg Operand.programCounterDisplacement (h 0 (by simp [extWords]))
  | immediate value => exact congrArg Operand.immediate (immediateAt_of_words value b j h)

/-- What the decoder does with bytes that begin with the opcode word of a `CMP` instruction. -/
theorem decode_cmpOpcode {w : Width} (src : Operand w) (dn : Fin 8) {b : List Byte}
    (h2 : 2 ≤ b.length) (h0 : wordAt b 0 = cmpOpcode src dn) :
    decode b = if b.length < 2 + 2 * src.mode.ext w then .error .malformed
      else .ok (Instr.cmp w (operandOf src.mode (regField src) w b 1) dn) := by
  rw [decode_of_cmp_tag h2 (by rw [h0]; exact cmpFields_tag _ _ _ _ _), decodeCmp,
    if_neg (by omega), h0, cmpOpcode, cmpFields_tag, cmpFields_opmode, cmpFields_mode,
    cmpFields_reg, cmpFields_dreg, opmodeWidth_opmodeCode, if_neg (by simp)]
  simp only [eaMode_fields, toFin_ofNat_three]

/-- What the decoder does with bytes that begin with the opcode word of a legal `CMPI` instruction. -/
theorem decode_cmpiOpcode {w : Width} (dst : Operand w) {b : List Byte}
    (hd : dst.mode.cmpiDestination = true) (h4 : 4 ≤ b.length)
    (h0 : wordAt b 0 = cmpiOpcode dst) :
    decode b = if b.length < 2 + 2 * AddrMode.immediate.ext w + 2 * dst.mode.ext w then
        .error .malformed
      else .ok (Instr.cmpi w (immediateAt b 1 w)
        (operandOf dst.mode (regField dst) w b (1 + AddrMode.immediate.ext w))) := by
  have key : decodeCmpi b = if b.length < 2 + 2 * AddrMode.immediate.ext w + 2 * dst.mode.ext w then
        .error .malformed
      else .ok (Instr.cmpi w (immediateAt b 1 w)
        (operandOf dst.mode (regField dst) w b (1 + AddrMode.immediate.ext w))) := by
    rw [decodeCmpi, if_neg (by omega), h0, cmpiOpcode, cmpiFields_tag, cmpiFields_size,
      cmpiFields_mode, cmpiFields_reg, sizeWidth_sizeCode, if_neg (by simp), if_neg (by omega)]
    simp only [eaMode_fields, hd, Bool.true_eq_false, if_false]
  rw [decode, key]
  by_cases hl : b.length < 2 + 2 * AddrMode.immediate.ext w + 2 * dst.mode.ext w
  · simp only [if_pos hl]
  · simp only [if_neg hl]

end Sys2Proof
end

