-- ==== Sys2Proof/Laws/PerInstr.lean ====
section
/-! SUPPORT. Facts about instructions as syntax, one lemma per constructor. -/

namespace Sys2Proof.Laws.LengthBounds

/-- An instruction is 1 to 5 words long (R60), `CMP` 1 to 3 and `CMPI` 2 to 5 (R210, R220). -/
def Statement (i : Instr) : Prop :=
  match i.family with
  | .cmp => 1 ≤ i.lengthWords ∧ i.lengthWords ≤ 3
  | .cmpi => 2 ≤ i.lengthWords ∧ i.lengthWords ≤ 5

theorem cmp_of_ext (w : Width) (src : Operand w) (dn : Fin 8) :
    1 ≤ (Instr.cmp w src dn).lengthWords ∧ (Instr.cmp w src dn).lengthWords ≤ 3 := by
  have := ext_le_two src.mode w
  rw [lengthWords_cmp]; omega

theorem cmpi_of_ext (w : Width) (value : Value w) (dst : Operand w) :
    2 ≤ (Instr.cmpi w value dst).lengthWords ∧ (Instr.cmpi w value dst).lengthWords ≤ 5 := by
  have := ext_le_two dst.mode w
  have := ext_le_two .immediate w
  have := one_le_ext_immediate w
  rw [lengthWords_cmpi]; omega

theorem cmpB (src : Operand .byte) (dn : Fin 8) : Statement (.cmpB src dn) := cmp_of_ext .byte src dn

theorem cmpW (src : Operand .word) (dn : Fin 8) : Statement (.cmpW src dn) := cmp_of_ext .word src dn

theorem cmpL (src : Operand .long) (dn : Fin 8) : Statement (.cmpL src dn) := cmp_of_ext .long src dn

theorem cmpiB (value : Value .byte) (dst : Operand .byte) : Statement (.cmpiB value dst) :=
  cmpi_of_ext .byte value dst

theorem cmpiW (value : Value .word) (dst : Operand .word) : Statement (.cmpiW value dst) :=
  cmpi_of_ext .word value dst

theorem cmpiL (value : Value .long) (dst : Operand .long) : Statement (.cmpiL value dst) :=
  cmpi_of_ext .long value dst

end Sys2Proof.Laws.LengthBounds
end

