-- ==== Sys2Proof/Laws/Step.lean ====
section
/-! SUPPORT. What a step can do, once, and what the fetch window holds. -/

namespace Sys2Proof.Machine

section Codes
variable {α : Type} (x : α) (f : Fault) (i : Instr) (r : Reject) (t : State)
@[simp] theorem resultCode_ok : resultCode (.ok x) = okCode := rfl
@[simp] theorem resultCode_error : resultCode (.error f : Except Fault α) = f.code := rfl
@[simp] theorem decodeCode_ok : decodeCode (.ok i) = okCode := rfl
@[simp] theorem decodeCode_error : decodeCode (.error r) = (Fault.ofReject r).code := rfl
@[simp] theorem stepCode_next : stepCode (.next t) = some okCode := rfl
@[simp] theorem stepCode_fault : stepCode (.fault f) = some f.code := rfl
end Codes

/-- What a step can do, once: the instruction decoded from the fetch window is executed, or the decoder's answer
stops the run. -/
theorem step_cases (s : State) :
    (∃ i, decode s.fetchWindow = .ok i ∧ step s = exec i s) ∨
    (∃ r, decode s.fetchWindow = .error r ∧ step s = .fault (Fault.ofReject r)) := by
  unfold step
  cases h : decode s.fetchWindow with
  | ok i => exact .inl ⟨i, rfl, rfl⟩
  | error r => exact .inr ⟨r, rfl, rfl⟩

/-- Where a next state of a step comes from. -/
theorem step_next {s t : State} (h : step s = .next t) :
    ∃ i, decode s.fetchWindow = .ok i ∧ exec i s = .next t := by
  rcases step_cases s with ⟨i, hd, he⟩ | ⟨r, -, hr⟩
  · exact ⟨i, hd, he ▸ h⟩
  · rw [hr] at h; cases h

@[simp] theorem length_fetchWindow (s : State) :
    s.fetchWindow.length = min 10 (s.mem.size - s.pc.toNat) := by
  simp [State.fetchWindow]

@[simp] theorem withFetchWord_pc (s : State) (nbits w : Nat) : (s.withFetchWord nbits w).pc = s.pc := by
  simp only [State.withFetchWord]

@[simp] theorem length_tableBytes (nbits w : Nat) : (tableBytes nbits w).length = 10 := by
  simp [tableBytes, length_bytesOfWords]

theorem withFetchWord_mem (s : State) (nbits w : Nat) :
    (s.withFetchWord nbits w).mem = s.mem.putBytes s.pc.toNat (tableBytes nbits w) := by
  simp only [State.withFetchWord]

/-- A full fetch window is any ten bytes that memory holds from `pc` up. -/
theorem fetchWindow_of_bytes {s : State} {bs : List Byte} (hb : bs.length = 10)
    (hroom : s.pc.toNat + 10 ≤ s.mem.size)
    (h : ∀ k < 10, s.mem.byteAt (s.pc.toNat + k) = bs.getD k 0#8) : s.fetchWindow = bs := by
  apply List.ext_getElem?
  intro k
  by_cases hk : k < 10
  · unfold State.fetchWindow
    rw [List.getElem?_map, List.getElem?_range (by omega), Option.map_some, h k hk,
      List.getD_eq_getElem?_getD, List.getElem?_eq_getElem (by omega), Option.getD_some]
  · rw [List.getElem?_eq_none (by rw [length_fetchWindow]; omega), List.getElem?_eq_none (by omega)]

/-- What the host placed is what the next step fetches. -/
theorem fetchWindow_withFetchWord {s : State} (hwf : s.mem.wf) (hroom : s.pc.toNat + 10 ≤ s.mem.size)
    (nbits w : Nat) : (s.withFetchWord nbits w).fetchWindow = tableBytes nbits w := by
  apply fetchWindow_of_bytes (length_tableBytes _ _)
  · rw [withFetchWord_pc, withFetchWord_mem, putBytes_size]; exact hroom
  · intro k hk
    rw [withFetchWord_pc, withFetchWord_mem,
      byteAt_putBytes hwf (by rw [length_tableBytes]; exact hroom),
      if_pos (by rw [length_tableBytes]; omega), Nat.add_sub_cancel_left]

end Sys2Proof.Machine
end

