-- ==== Sys2Proof/Tests/Slice0.lean ====
section
/-! SUPPORT. Tests and witnesses. The expected values of a test are those of the spec's own vectors, named in its
docstring (95_test_vectors.md, 30_encoding.md R82, 42_decoder_dispatch.md R180). A witness shows a concrete
state and operands that meet the hypotheses of an obligation, clause by clause. -/

namespace Sys2Proof.Tests

open Sys2Proof.Machine

/-! ### Small states to step from -/

/-- Memory of `size` bytes with bytes placed at one address. -/
def memoryAt (size a : Nat) (bytes : List Byte) : Memory := Memory.putBytes { size := size, cells := [] } a bytes

/-- The start state of 95_test_vectors.md Parts 6 to 8: `pc` and the instruction's bytes as given, 64 KiB of
memory, `X` set (so that keeping it shows), everything else 0. -/
def start (pc : Nat) (code : List Byte) : State :=
  { State.reset with pc := BitVec.ofNat 32 pc, flagX := true, mem := memoryAt 65536 pc code }

/-- More bytes in memory. -/
def withBytes (s : State) (a : Nat) (bytes : List Byte) : State := { s with mem := s.mem.putBytes a bytes }

/-- Whether an outcome is a next state with `pc`, `N`, `Z`, `V`, `C` as given and `X` still set. -/
def nextIs (o : Host.Outcome State Fault Refusal) (pc : Nat) (n z v c : Bool) : Bool :=
  match o with
  | .next t => t.pc.toNat == pc && t.flagN == n && t.flagZ == z && t.flagV == v && t.flagC == c && t.flagX
  | .fault _ => false
  | .refused _ => false

/-- Whether an outcome is a next state with `A[k]` as given. -/
def nextHasA (o : Host.Outcome State Fault Refusal) (k : Fin 8) (value : Nat) : Bool :=
  match o with
  | .next t => t.a[k].toNat == value
  | .fault _ => false
  | .refused _ => false

/-- Whether an outcome is the given stop. -/
def stopIs (o : Host.Outcome State Fault Refusal) (f : Fault) : Bool :=
  match o with
  | .next _ => false
  | .fault g => decide (g = f)
  | .refused _ => false

/-- Whether an outcome is a next state. -/
def isNext (o : Host.Outcome State Fault Refusal) : Bool :=
  match o with
  | .next _ => true
  | .fault _ => false
  | .refused _ => false

theorem exists_of_isNext {o : Host.Outcome State Fault Refusal} (h : isNext o = true) : ∃ t, o = .next t := by
  cases o with
  | next t => exact ⟨t, rfl⟩
  | fault f => cases h
  | refused r => cases h

theorem eq_of_stopIs {o : Host.Outcome State Fault Refusal} {f : Fault} (h : stopIs o f = true) : o = .fault f := by
  cases o with
  | next t => cases h
  | fault g => rw [of_decide_eq_true h]
  | refused r => cases h

/-! ### Well-formedness: each check refuses an ill-formed term -/

theorem test_wf_cmpiB_address_register : (Instr.cmpiB 1 (.addressRegisterDirect 0)).wf = false := by decide
theorem test_wf_cmpiB_immediate : (Instr.cmpiB 1 (.immediate 2)).wf = false := by decide
theorem test_wf_cmpiW_address_register : (Instr.cmpiW 1 (.addressRegisterDirect 7)).wf = false := by decide
theorem test_wf_cmpiW_immediate : (Instr.cmpiW 1 (.immediate 2)).wf = false := by decide
theorem test_wf_cmpiL_address_register : (Instr.cmpiL 1 (.addressRegisterDirect 3)).wf = false := by decide
theorem test_wf_cmpiL_immediate : (Instr.cmpiL 1 (.immediate 2)).wf = false := by decide
theorem test_wf_cmp_immediate_source : (Instr.cmpB (.immediate 2) 0).wf = true := by decide
theorem test_wf_cmpi_pc_relative : (Instr.cmpiW 1 (.programCounterDisplacement 4)).wf = true := by decide

/-! ### Decoding: words written out from the formats R62, R63 -/

/-- R82, R180: `CMP.B D0,D1`, 1011 001 000 000 000. -/
theorem test_decode_cmpB :
    decode [0b10110010#8, 0b00000000#8] = .ok (.cmpB (.dataRegisterDirect 0) 1) := by decide

/-- 95_test_vectors.md G9: `CMP.W -2(A1),D0`, 1011 000 001 101 001, then the displacement. -/
theorem test_decode_cmpW :
    decode [0b10110000#8, 0b01101001#8, 0xFF#8, 0xFE#8] =
      .ok (.cmpW (.indirectWithDisplacement 1 0xFFFE#16) 0) := by decide

/-- R82: `CMP.L #$00C0FFEE,D7`, 1011 111 010 111 100, then the long immediate, high word first. -/
theorem test_decode_cmpL :
    decode [0b10111110#8, 0b10111100#8, 0x00#8, 0xC0#8, 0xFF#8, 0xEE#8] =
      .ok (.cmpL (.immediate 0x00C0FFEE#32) 7) := by decide

/-- R180: `CMPI.B #125,D1`, 00001100 00 000 001; the high byte `AB` of the immediate's word is ignored. -/
theorem test_decode_cmpiB :
    decode [0b00001100#8, 0b00000001#8, 0xAB#8, 0x7D#8] = .ok (.cmpiB 0x7D#8 (.dataRegisterDirect 1)) := by
  decide

/-- 95_test_vectors.md H6: `CMPI.W #$FFFF,$7FFF(A2)`, 00001100 01 101 010, immediate, displacement. -/
theorem test_decode_cmpiW :
    decode [0b00001100#8, 0b01101010#8, 0xFF#8, 0xFF#8, 0x7F#8, 0xFF#8] =
      .ok (.cmpiW 0xFFFF#16 (.indirectWithDisplacement 2 0x7FFF#16)) := by decide

/-- R82: `CMPI.L #1,$00012345.L`, 00001100 10 111 001, immediate, absolute long. -/
theorem test_decode_cmpiL :
    decode [0b00001100#8, 0b10111001#8, 0x00#8, 0x00#8, 0x00#8, 0x01#8, 0x00#8, 0x01#8, 0x23#8, 0x45#8] =
      .ok (.cmpiL 1#32 (.absoluteLong 0x00012345#32)) := by decide

/-- R70, at `CMP.B`: every row of `EA_CODE`, with the register field set to the row's own code. -/
theorem test_decode_modes :
    decode [0xB0#8, 0b00000011#8] = .ok (.cmpB (.dataRegisterDirect 3) 0) ∧
    decode [0xB0#8, 0b00001010#8] = .ok (.cmpB (.addressRegisterDirect 2) 0) ∧
    decode [0xB0#8, 0b00010110#8] = .ok (.cmpB (.addressRegisterIndirect 6) 0) ∧
    decode [0xB0#8, 0b00011111#8] = .ok (.cmpB (.postincrement 7) 0) ∧
    decode [0xB0#8, 0b00100001#8] = .ok (.cmpB (.predecrement 1) 0) ∧
    decode [0xB0#8, 0b00101101#8, 0x80#8, 0x00#8] = .ok (.cmpB (.indirectWithDisplacement 5 0x8000#16) 0) ∧
    decode [0xB0#8, 0b00111000#8, 0x12#8, 0x34#8] = .ok (.cmpB (.absoluteShort 0x1234#16) 0) ∧
    decode [0xB0#8, 0b00111001#8, 0x12#8, 0x34#8, 0x56#8, 0x78#8] =
      .ok (.cmpB (.absoluteLong 0x12345678#32) 0) ∧
    decode [0xB0#8, 0b00111010#8, 0x00#8, 0x10#8] = .ok (.cmpB (.programCounterDisplacement 0x0010#16) 0) ∧
    decode [0xB0#8, 0b00111100#8, 0x00#8, 0x2A#8] = .ok (.cmpB (.immediate 0x2A#8) 0) := by decide

/-- R180: what is refused, and how. -/
theorem test_decode_refusals :
    decode [0xB4#8, 0x78#8, 0x12#8] = .error .malformed ∧
    decode [0xB2#8, 0xC0#8] = .error .illegalOperand ∧
    decode [0xB2#8, 0x30#8] = .error .illegalOperand ∧
    decode [0x0C#8, 0x40#8] = .error .malformed ∧
    decode [0x0C#8, 0x48#8, 0x00#8, 0x34#8] = .error .illegalOperand ∧
    decode [0x0C#8, 0x7C#8, 0x00#8, 0x34#8] = .error .illegalOperand ∧
    decode [0x0C#8, 0xC0#8, 0x00#8, 0x34#8] = .error .illegalOperand ∧
    decode [0x0C#8, 0xB9#8, 0x00#8, 0x00#8, 0x00#8, 0x01#8, 0x00#8, 0x01#8] = .error .malformed ∧
    decode [0x4E#8, 0x71#8] = .error .noMatch ∧
    decode [0xB2#8] = .error .malformed ∧
    decode [] = .error .malformed := by decide

/-- R82: two of the worked encodings, the longest among them. -/
theorem test_encode :
    encode (.cmpW (.absoluteShort 0x1234#16) 2) = [0xB4#8, 0x78#8, 0x12#8, 0x34#8] ∧
    encode (.cmpiL 1#32 (.absoluteLong 0x00012345#32)) =
      [0x0C#8, 0xB9#8, 0x00#8, 0x00#8, 0x00#8, 0x01#8, 0x00#8, 0x01#8, 0x23#8, 0x45#8] := by decide

/-! ### One step of each instruction -/

/-- S1: `CMP.B D0,D1`. -/
theorem test_step_cmpB :
    nextIs (step { start 0x1000 [0xB2#8, 0x00#8] with
      d := #v[0x00C0FFEE#32, 0x7B#32, 0, 0, 0, 0, 0, 0], flagZ := true })
      0x1002 true false true true = true := by decide

/-- G7: `CMP.B (A7)+,D5`, the stack pointer moves by 2. -/
def stateG7 : State :=
  withBytes { start 0x1000 [0xBA#8, 0x1F#8] with
    d := #v[0, 0, 0, 0, 0, 0x80#32, 0, 0], a := #v[0, 0, 0, 0, 0, 0, 0, 0x2000#32] } 0x2000 [0x7F#8]

theorem test_step_cmpB_stack_pointer :
    nextIs (step stateG7) 0x1002 false false true false = true ∧ nextHasA (step stateG7) 7 0x2002 = true := by
  decide

/-- G2: `CMP.W D0,D1`, the upper half ignored. -/
theorem test_step_cmpW :
    nextIs (step { start 0x1000 [0xB2#8, 0x40#8] with d := #v[1#32, 0xFFFF0000#32, 0, 0, 0, 0, 0, 0] })
      0x1002 true false false true = true := by decide

/-- G9: `CMP.W -2(A1),D0`, a negative displacement. -/
theorem test_step_cmpW_displacement :
    nextIs (step (withBytes { start 0x1000 [0xB0#8, 0x69#8, 0xFF#8, 0xFE#8] with
      d := #v[0x8000#32, 0, 0, 0, 0, 0, 0, 0], a := #v[0, 0x2002#32, 0, 0, 0, 0, 0, 0] }
      0x2000 [0x80#8, 0x00#8])) 0x1004 false true false false = true := by decide

/-- G6: `CMP.L (A0)+,D3`, big-endian data, `A0` moves by 4. -/
def stateG6 : State :=
  withBytes { start 0x1000 [0xB6#8, 0x98#8] with
    d := #v[0, 0, 0, 0x00010000#32, 0, 0, 0, 0], a := #v[0x2000#32, 0, 0, 0, 0, 0, 0, 0] }
    0x2000 [0x00#8, 0x01#8, 0x00#8, 0x01#8]

theorem test_step_cmpL :
    nextIs (step stateG6) 0x1002 true false false true = true ∧ nextHasA (step stateG6) 0 0x2004 = true := by
  decide

/-- G15: `CMP.L (A0)+,D3` that runs off the end of memory. -/
theorem test_step_cmpL_access_fault :
    stopIs (step { start 0x1000 [0xB6#8, 0x98#8] with a := #v[0xFFFE#32, 0, 0, 0, 0, 0, 0, 0] })
      (.accessFault 0x00010000#32) = true := by decide

/-- S4: `CMPI.B #125,D1`, a long in the register. -/
theorem test_step_cmpiB :
    nextIs (step { start 0x1000 [0x0C#8, 0x01#8, 0x00#8, 0x7D#8] with
      d := #v[0, 0xFFFFFFFC#32, 0, 0, 0, 0, 0, 0] }) 0x1004 false false true false = true := by decide

/-- H4: `CMPI.B #1,-(A7)`. -/
def stateH4 : State :=
  withBytes { start 0x1000 [0x0C#8, 0x27#8, 0x00#8, 0x01#8] with a := #v[0, 0, 0, 0, 0, 0, 0, 0x2000#32] }
    0x1FFE [0x01#8]

theorem test_step_cmpiB_predecrement :
    nextIs (step stateH4) 0x1004 false true false false = true ∧ nextHasA (step stateH4) 7 0x1FFE = true := by
  decide

/-- S3: `CMPI.W #$0100,D0`, the vector that separates the overflow rules (90_conflicts.md C1). -/
theorem test_step_cmpiW :
    nextIs (step { start 0x1000 [0x0C#8, 0x40#8, 0x01#8, 0x00#8] with
      d := #v[0xFF#32, 0, 0, 0, 0, 0, 0, 0], flagV := true }) 0x1004 true false false true = true := by decide

/-- H9: `CMPI.W #1,-(A0)`, the last word of memory. -/
theorem test_step_cmpiW_end_of_memory :
    nextIs (step { start 0x1000 [0x0C#8, 0x60#8, 0x00#8, 0x01#8] with
      a := #v[0x10000#32, 0, 0, 0, 0, 0, 0, 0] }) 0x1004 true false false true = true := by decide

/-- H3: `CMPI.L #$80000000,D7`. -/
theorem test_step_cmpiL :
    nextIs (step { start 0x1000 [0x0C#8, 0x87#8, 0x80#8, 0x00#8, 0x00#8, 0x00#8] with
      d := #v[0, 0, 0, 0, 0, 0, 0, 0x7FFFFFFF#32] }) 0x1006 true false true true = true := by decide

/-- H8: `CMPI.L #$DEADBEEF,2(PC)`, its own immediate. -/
theorem test_step_cmpiL_pc_relative :
    nextIs (step (start 0x1000 [0x0C#8, 0xBA#8, 0xDE#8, 0xAD#8, 0xBE#8, 0xEF#8, 0x00#8, 0x02#8]))
      0x1008 false true false false = true := by decide

/-! ### The step at its edges (95_test_vectors.md Part 8) -/

/-- T1, T2, T4, T5, T7: the decoder's outcomes stop the run. -/
theorem test_step_stops :
    stopIs (step (start 0x1000 [0x4E#8, 0x71#8])) .noMatch = true ∧
    stopIs (step (start 0x1000 [0xB2#8, 0xC0#8])) .illegalOperand = true ∧
    stopIs (step (start 0x10000 [])) .malformed = true ∧
    stopIs (step (start 0xFFFE [0x0C#8, 0x40#8])) .malformed = true ∧
    stopIs (step (start 0xFFFF [0xB2#8])) .malformed = true := by decide

/-- T3: the last two bytes of memory execute. -/
theorem test_step_last_bytes :
    nextIs (step { start 0xFFFE [0xB2#8, 0x00#8] with d := #v[1#32, 0, 0, 0, 0, 0, 0, 0] })
      0x10000 true false false true = true := by decide

/-- R81, opcode_table.json: each row's word, with operand words of zeros, is what the decoder and the very next
step from reset run. -/
theorem test_rows_run_from_reset :
    decodeTableWord 16 0xB000 = some (.cmpB (.dataRegisterDirect 0) 0) ∧
    decodeTableWord 16 0xB040 = some (.cmpW (.dataRegisterDirect 0) 0) ∧
    decodeTableWord 16 0xB080 = some (.cmpL (.dataRegisterDirect 0) 0) ∧
    decodeTableWord 32 0x00340C00 = some (.cmpiB 0x34#8 (.dataRegisterDirect 0)) ∧
    decodeTableWord 32 0x00340C40 = some (.cmpiW 0x34#16 (.dataRegisterDirect 0)) ∧
    decodeTableWord 16 0x0C80 = some (.cmpiL 0#32 (.dataRegisterDirect 0)) ∧
    isNext (step (State.reset.withFetchWord 16 0xB000)) = true ∧
    isNext (step (State.reset.withFetchWord 16 0xB040)) = true ∧
    isNext (step (State.reset.withFetchWord 16 0xB080)) = true ∧
    isNext (step (State.reset.withFetchWord 32 0x00340C00)) = true ∧
    isNext (step (State.reset.withFetchWord 32 0x00340C40)) = true ∧
    isNext (step (State.reset.withFetchWord 16 0x0C80)) = true := by decide

/-- R240: the code of each outcome, with `Ok` 0. -/
theorem test_outcome_codes :
    resultCode (.ok 1#8 : Except Fault Byte) = 0 ∧ decodeCode (decode [0xB2#8, 0x00#8]) = 0 ∧
    decodeCode (decode [0xB2#8, 0xC0#8]) = 1 ∧ decodeCode (decode [0x4E#8, 0x71#8]) = 2 ∧
    decodeCode (decode [0xB2#8]) = 3 ∧ stepCode (step (start 0x1000 [0xB2#8, 0x00#8])) = some 0 ∧
    stepCode (.fault (.accessFault 0x10000#32)) = some 5 ∧
    resultCode (SizedValue.fromSigned 3 1) = 6 ∧
    resultCode (SizedValue.eq ⟨.byte, 1#8⟩ ⟨.word, 1#16⟩) = 7 := by decide

/-! ### Witnesses: a state and operands that meet the hypotheses of each obligation, clause by clause -/

/-- A state with a few bytes at 0x2000 and at the end of memory, `A0` there, `A1` past it, `A7` at the word. -/
def demo : State :=
  withBytes (withBytes { start 0x1000 [0xB2#8, 0x58#8] with
    a := #v[0x2000#32, 0xFFFF#32, 0, 0, 0, 0, 0, 0x2000#32] } 0x2000 [0x12#8, 0x34#8, 0x56#8, 0x78#8]) 0xFFFE [0xAB#8, 0xCD#8]

/-- Memory of the whole address space, where every address is readable. -/
def demoFull : State := { demo with mem := memoryAt 4294967296 0x2000 [0x12#8, 0x34#8] }

theorem demo_wf : demo.mem.wf := by decide
theorem demoFull_wf : demoFull.mem.wf := by decide

theorem witness_PlainMemoryModesReadAtTheirAddress :
    ((∃ n, (.addressRegisterIndirect 0 : Operand .word) = .addressRegisterIndirect n ∧ 0x2000#32 = demo.a[n]) ∧
      demo.mem.read .word 0x2000#32 = .ok 0x1234#16) ∧
    ((∃ n disp, (.indirectWithDisplacement 0 0xFFFE#16 : Operand .word) = .indirectWithDisplacement n disp ∧
        0x1FFE#32 = BitVec.ofInt 32 (demo.a[n].toNat + disp.toInt)) ∧
      demo.mem.read .word 0x1FFE#32 = .ok 0#16) ∧
    demo.mem.read .word 0xFFFF#32 = .error (.accessFault 0x10000#32) :=
  ⟨⟨⟨0, rfl, by decide⟩, by decide⟩, ⟨⟨0, 0xFFFE#16, rfl, by decide⟩, by decide⟩, by decide⟩

/-- The three premises on `ea` at the last address below 0x8000 and at the first above it, for either value of the
parameter, with the read that follows. -/
theorem witness_AbsoluteShortWidensByTheOpenParameter :
    (∀ addr16 ∈ [0x7FFF#16, 0x8000#16], ∃ ea : Nat,
      (addr16.toNat < 0x8000 → ea = addr16.toNat) ∧
      (0x8000 ≤ addr16.toNat → Config.absShortExt = .zero → ea = addr16.toNat) ∧
      (0x8000 ≤ addr16.toNat → Config.absShortExt = .sign → ea = addr16.toNat + 0xFFFF0000) ∧
      demoFull.mem.read .word (BitVec.ofNat 32 ea) = .ok 0#16) ∧
    demo.mem.read .word (BitVec.ofNat 32 0x10000) = .error (.accessFault 0x10000#32) := by
  refine ⟨fun addr16 h => ?_, by decide⟩
  rcases List.mem_cons.mp h with rfl | h
  · exact ⟨0x7FFF, by decide, by decide, by decide, by decide⟩
  · obtain rfl := List.mem_singleton.mp h
    cases hx : Config.absShortExt with
    | zero => exact ⟨0x8000, by decide, fun _ _ => rfl, fun _ e => (AbsShortExt.noConfusion e), by decide⟩
    | sign => exact ⟨0xFFFF8000, by decide, fun _ e => (AbsShortExt.noConfusion e), fun _ _ => rfl, by decide⟩

theorem witness_PcRelativeReadsFromTheOpcodeWord :
    0x1000#32 = BitVec.ofInt 32 (demo.pc.toNat + (0#16).toInt) ∧ demo.mem.read .word 0x1000#32 = .ok 0xB258#16 ∧
    0xFFFFF000#32 = BitVec.ofInt 32 (demo.pc.toNat + (0xE000#16).toInt) ∧
    demo.mem.read .word 0xFFFFF000#32 = .error (.accessFault 0xFFFFF000#32) := by decide

theorem witness_AutoModesStepTheRegister :
    (2#32).toNat = (if (7 : Fin 8) = 7 ∧ Width.byte = .byte then 2 else Width.byte.bytes) ∧
    (4#32).toNat = (if (0 : Fin 8) = 7 ∧ Width.long = .byte then 2 else Width.long.bytes) ∧
    demo.mem.read .byte demo.a[7] = .ok 0x12#8 ∧ demo.mem.read .byte (demo.a[7] - 2#32) = .ok 0#8 ∧
    demo.mem.read .long demo.a[1] = .error (.accessFault 0x10000#32) ∧
    demo.mem.read .long (demo.a[2] - 4#32) = .error (.accessFault 0xFFFFFFFC#32) := by decide

/-- Two resolutions each way, at byte width on the stack pointer. -/
theorem witness_SideEffectOncePerResolution :
    (∃ v₁ s₁ v₂ s₂, resolve (.postincrement 7 : Operand .byte) demo = .ok (v₁, s₁) ∧
      resolve (.postincrement 7 : Operand .byte) s₁ = .ok (v₂, s₂)) ∧
    (∃ v₁ s₁ v₂ s₂, resolve (.predecrement 7 : Operand .byte) demo = .ok (v₁, s₁) ∧
      resolve (.predecrement 7 : Operand .byte) s₁ = .ok (v₂, s₂)) ∧
    (∃ t, exec (Instr.cmp .byte (.postincrement 7) 0) demo = .next t) ∧
    (∃ t, exec (Instr.cmp .byte (.predecrement 7) 0) demo = .next t) ∧
    (∃ t, exec (Instr.cmpi .word 1#16 (.postincrement 0)) demo = .next t) ∧
    (∃ t, exec (Instr.cmpi .word 1#16 (.predecrement 0)) demo = .next t) :=
  ⟨⟨0x12#8, demo.setA 7 0x2002#32, 0x56#8, (demo.setA 7 0x2002#32).setA 7 0x2004#32, by decide, by decide⟩,
    ⟨0#8, demo.setA 7 0x1FFE#32, 0#8, (demo.setA 7 0x1FFE#32).setA 7 0x1FFC#32, by decide, by decide⟩,
    exists_of_isNext (by decide), exists_of_isNext (by decide), exists_of_isNext (by decide),
    exists_of_isNext (by decide)⟩

theorem witness_WritePathStoresWhereTheOperandPoints :
    ((.postincrement 0 : Operand .word).mode ≠ .programCounterDisplacement ∧
      locate (.postincrement 0 : Operand .word) demo = .memory 0x2000#32 (demo.setA 0 0x2002#32) ∧
      ∃ m, demo.mem.write (w := .word) 0x2000#32 0xBEEF#16 = .ok m) ∧
    ((.addressRegisterIndirect 1 : Operand .word).mode ≠ .programCounterDisplacement ∧
      locate (.addressRegisterIndirect 1 : Operand .word) demo = .memory 0xFFFF#32 demo ∧
      demo.mem.write (w := .word) 0xFFFF#32 0xBEEF#16 = .error (.accessFault 0x10000#32)) :=
  ⟨⟨by decide, by decide, demo.mem.setBytes [(0x2000#32, 0xBE#8), (0x2001#32, 0xEF#8)], by decide⟩,
    by decide, by decide, by decide⟩

theorem witness_ReadIsBigEndianOrFaultsAtTheFirstMissingByte :
    demo.mem.accessible 0xFFFE#32 Width.word.bytes ∧ demo.mem.firstMissing 0xFFFF#32 Width.word.bytes 1 ∧
    demo.mem.firstMissing 0xFFFFFFFF#32 Width.long.bytes 0 := by decide

theorem witness_WriteStoresItsBytesAndNoOther :
    demo.mem.wf ∧ demo.mem.accessible 0xFFFE#32 Width.word.bytes ∧
    demo.mem.firstMissing 0xFFFF#32 Width.word.bytes 1 ∧
    demoFull.mem.wf ∧ demoFull.mem.accessible 0xFFFFFFFF#32 Width.long.bytes := by decide

theorem witness_CanonicalMemoriesWithEqualBytesAreEqual :
    (memoryAt 4 1 [7#8, 0#8]).wf ∧ (memoryAt 4 0 [0#8, 7#8]).wf ∧
    (memoryAt 4 1 [7#8, 0#8]).size = (memoryAt 4 0 [0#8, 7#8]).size ∧
    ∀ a < (memoryAt 4 1 [7#8, 0#8]).size, (memoryAt 4 1 [7#8, 0#8]).byteAt a = (memoryAt 4 0 [0#8, 7#8]).byteAt a := by
  decide

theorem witness_FetchWindowIsTheBytesFromPc :
    (0 < 10 ∧ demo.pc.toNat + 0 < demo.mem.size) ∧ (9 < 10 ∧ demo.pc.toNat + 9 < demo.mem.size) := by decide

theorem witness_HostStoreIsSeenByTheNextFetch :
    demo.mem.wf ∧ 0x1009 < demo.mem.size ∧ 9 < demo.fetchWindow.length ∧ demo.pc.toNat + 9 = 0x1009 ∧
    0xFFFF < demo.mem.size ∧ demo.pc.toNat + 9 ≠ 0xFFFF := by decide

theorem witness_ConstructionReducesModuloTheWidth :
    (1 ∈ [1, 2, 4] ∧ 2 ∈ [1, 2, 4] ∧ 4 ∈ [1, 2, 4]) ∧ 0 ∉ [1, 2, 4] ∧ 3 ∉ [1, 2, 4] ∧ 5 ∉ [1, 2, 4] := by decide

theorem witness_MixedWidthsAreRejected :
    (⟨.byte, 1#8⟩ : SizedValue).width ≠ (⟨.long, 1#32⟩ : SizedValue).width := by decide

theorem witness_ValuesCompareAndMaskByTheirViews :
    Width.byte.bytes ≤ Width.byte.bytes ∧ Width.word.bytes ≤ Width.long.bytes ∧ Width.word.bytes < Width.long.bytes := by
  decide

theorem witness_CmpCompletesWithTheFlagsOfTheDifference :
    readable (.postincrement 0 : Operand .byte) demo = true ∧ readable (.postincrement 0 : Operand .word) demo = true ∧
    readable (.postincrement 0 : Operand .long) demo = true ∧
    readable (.addressRegisterDirect 0 : Operand .byte) demo = true := by decide

theorem witness_CmpiCompletesWithTheFlagsOfTheDifference :
    ((Instr.cmpi .byte 1#8 (.predecrement 0)).wf = true ∧ readable (.predecrement 0 : Operand .byte) demo = true) ∧
    ((Instr.cmpi .word 1#16 (.dataRegisterDirect 0)).wf = true ∧
      readable (.dataRegisterDirect 0 : Operand .word) demo = true) ∧
    ((Instr.cmpi .long 1#32 (.programCounterDisplacement 2#16)).wf = true ∧
      readable (.programCounterDisplacement 2#16 : Operand .long) demo = true) := by decide

theorem witness_CmpAdvancesPcByItsLength :
    (∃ t, exec (Instr.cmp .word (.postincrement 0) 1) demo = .next t) ∧
    (∃ t, exec (Instr.cmp .byte (.immediate 1#8) 1) demo = .next t) ∧
    (∃ t, exec (Instr.cmp .long (.absoluteLong 0x2000#32) 1) demo = .next t) :=
  ⟨exists_of_isNext (by decide), exists_of_isNext (by decide), exists_of_isNext (by decide)⟩

theorem witness_CmpiAdvancesPcByItsLength :
    ((Instr.cmpi .byte 1#8 (.indirectWithDisplacement 0 4#16)).wf = true ∧
      ∃ t, exec (Instr.cmpi .byte 1#8 (.indirectWithDisplacement 0 4#16)) demo = .next t) ∧
    ((Instr.cmpi .long 1#32 (.absoluteLong 0x2000#32)).wf = true ∧
      ∃ t, exec (Instr.cmpi .long 1#32 (.absoluteLong 0x2000#32)) demo = .next t) :=
  ⟨⟨by decide, exists_of_isNext (by decide)⟩, by decide, exists_of_isNext (by decide)⟩

theorem witness_CmpStopsOnlyOnAMissingSourceByte :
    readable (.addressRegisterIndirect 1 : Operand .word) demo = false ∧
    readable (.addressRegisterIndirect 1 : Operand .byte) demo = true := by decide

theorem witness_CmpiStopsOnlyOnAMissingDestinationByte :
    (Instr.cmpi .word 1#16 (.postincrement 1)).wf = true ∧ readable (.postincrement 1 : Operand .word) demo = false ∧
    (Instr.cmpi .byte 1#8 (.postincrement 1)).wf = true ∧ readable (.postincrement 1 : Operand .byte) demo = true := by
  decide

theorem witness_PcAdvancesByTheEncodedLength :
    (Instr.cmpiW 1#16 (.postincrement 0)).wf = true ∧ ∃ t, exec (.cmpiW 1#16 (.postincrement 0)) demo = .next t :=
  ⟨by decide, exists_of_isNext (by decide)⟩

/-- `A0` is the register stepped, `A1` one that is not. -/
theorem witness_CompareLeavesEverythingElse :
    (Instr.cmpL (.predecrement 0) 3).wf = true ∧ (∃ t, exec (.cmpL (.predecrement 0) 3) demo = .next t) ∧
    stepped (Instr.cmpL (.predecrement 0) 3).src ≠ some 1 ∧ stepped (Instr.cmpL (.predecrement 0) 3).dst ≠ some 1 :=
  ⟨by decide, exists_of_isNext (by decide), by decide, by decide⟩

theorem witness_NarrowCompareIgnoresUpperBytes :
    ∀ k : Fin 8, (Vector.replicate 8 0xFFFF0000#32)[k].toNat % 2 ^ (8 * (Instr.cmpW (.dataRegisterDirect 0) 1).width.bytes) =
      demo.d[k].toNat % 2 ^ (8 * (Instr.cmpW (.dataRegisterDirect 0) 1).width.bytes) := by decide

/-- `CMP.L` and `CMPI.L` with the operand `(A7)+`. -/
theorem witness_EncodeLaysOutTheOpcodeFields :
    2 = (match Width.long with | .byte => 0 | .word => 1 | .long => 2) ∧
    31 = (match (.postincrement 7 : Operand .long) with
      | .postincrement n => 24 + n.val
      | _ => 0) := by decide

theorem witness_DecodeOfEncodeIsTheInstruction :
    (Instr.cmpiL 1#32 (.absoluteLong 2#32)).wf = true ∧ 9 < 2 * (Instr.cmpiL 1#32 (.absoluteLong 2#32)).lengthWords ∧
    (Instr.cmpB (.postincrement 7) 7).wf = true ∧ 0 < 2 * (Instr.cmpB (.postincrement 7) 7).lengthWords := by decide

/-- The second input has a high byte the encoding does not keep. -/
theorem witness_EncodeOfDecodeIsTheBytes :
    decode [0xB2#8, 0x00#8, 0xFF#8] = .ok (.cmpB (.dataRegisterDirect 0) 1) ∧
    decode [0x0C#8, 0x01#8, 0xAB#8, 0x7D#8] = .ok (.cmpiB 0x7D#8 (.dataRegisterDirect 1)) ∧
    2 < 2 * (Instr.cmpiB 0x7D#8 (.dataRegisterDirect 1)).lengthWords := by decide

theorem witness_DecodeReadsNoByteBeyond :
    decode [0xB2#8, 0x00#8, 0xFF#8, 0xFF#8] = .ok (.cmpB (.dataRegisterDirect 0) 1) := by decide

/-- An input for each clause, with the values the premises give `mode`, `reg` and `ext`. The legal words are taken
at the longest input that is too short and at the shortest that is long enough: `B2 00`, `B6 3C`, `BE BC`,
`0C 40`, `0C B9`. -/
theorem witness_DecodeOutcomeByTheOrderOfChecks :
    [0xB2#8].length < 2 ∧
    (2 ≤ [0x4E#8, 0x71#8].length ∧ 0x4E71 = 0x4E * 256 + 0x71 ∧ 0x4E71 / 4096 ≠ 0xB ∧ 0x4E71 / 256 ≠ 0x0C) ∧
    (2 ≤ [0x0C#8, 0x40#8].length ∧ 0x0C40 / 256 = 0x0C ∧ [0x0C#8, 0x40#8].length < 4) ∧
    (2 ≤ [0xB2#8, 0xC0#8].length ∧ 0xB2C0 / 4096 = 0xB ∧ ¬ 0xB2C0 / 64 % 8 ≤ 2) ∧
    (4 ≤ [0x0C#8, 0x48#8, 0x00#8, 0x34#8].length ∧ 0x0C48 / 256 = 0x0C ∧ 0x0C48 / 8 % 8 = 1) ∧
    (0xB200 / 4096 = 0xB ∧ 0xB200 / 64 % 8 ≤ 2 ∧ 0xB200 / 8 % 8 = 0 ∧ 2 * 1 ≤ [0xB2#8, 0x00#8].length) ∧
    (0xB63C / 4096 = 0xB ∧ 0xB63C / 64 % 8 = 0 ∧ 0xB63C / 8 % 8 = 7 ∧ 0xB63C % 8 = 4 ∧
      2 ≤ [0xB6#8, 0x3C#8, 0xAB#8].length ∧ [0xB6#8, 0x3C#8, 0xAB#8].length < 2 * 2) ∧
    (0xBEBC / 4096 = 0xB ∧ 0xBEBC / 64 % 8 = 2 ∧ 0xBEBC / 8 % 8 = 7 ∧ 0xBEBC % 8 = 4 ∧
      2 * (1 + 2) ≤ [0xBE#8, 0xBC#8, 0x00#8, 0xC0#8, 0xFF#8, 0xEE#8].length) ∧
    (0x0C40 / 64 % 4 = 1 ∧ 0x0C40 / 8 % 8 = 0 ∧ 4 ≤ [0x0C#8, 0x40#8, 0x00#8, 0x34#8].length ∧
      2 * (1 + 1 + 0) ≤ [0x0C#8, 0x40#8, 0x00#8, 0x34#8].length) ∧
    (0x0CB9 / 256 = 0x0C ∧ 0x0CB9 / 64 % 4 = 2 ∧ 0x0CB9 / 8 % 8 = 7 ∧ 0x0CB9 % 8 = 1 ∧
      [0x0C#8, 0xB9#8, 0x00#8, 0x00#8, 0x00#8, 0x01#8, 0x00#8, 0x01#8, 0x23#8].length < 2 * (1 + 2 + 2)) := by
  decide

theorem witness_ByteImmediateHighByteIsIgnored :
    (decode (0x0C#8 :: 0x01#8 :: 0xAB#8 :: [0x7D#8]) = .ok (.cmpiB 0x7D#8 (.dataRegisterDirect 1)) ∧
      (Instr.cmpiB 0x7D#8 (.dataRegisterDirect 1)).width = .byte ∧
      (Instr.cmpiB 0x7D#8 (.dataRegisterDirect 1)).src.mode = .immediate) ∧
    (decode (0xB6#8 :: 0x3C#8 :: 0xAB#8 :: [0xFF#8]) = .ok (.cmpB (.immediate 0xFF#8) 3) ∧
      (Instr.cmpB (.immediate 0xFF#8) 3).width = .byte ∧
      (Instr.cmpB (.immediate 0xFF#8) 3).src.mode = .immediate) := by decide

theorem witness_DecodedInstructionsAreConstructible :
    decode [0xB2#8, 0x00#8] = .ok (.cmpB (.dataRegisterDirect 0) 1) ∧
    (Instr.cmpiW 1#16 (.absoluteShort 0x8000#16)).wf = true := by decide

/-- A legal list of operands for each family, at the edges of the payload ranges, and one just outside them. -/
theorem witness_ConstructAcceptsExactlyTheLegal :
    (4 ∈ [1, 2, 4] ∧ recordInRange (.indirectWithDisplacement 7 (-32768)) ∧ recordInRange (.dataRegisterDirect 7) ∧
      recordMode (.dataRegisterDirect 7) = .dataRegisterDirect) ∧
    (1 ∈ [1, 2, 4] ∧ recordInRange (.immediate (-4)) ∧ recordInRange (.absoluteShort 0xFFFF) ∧
      recordMode (.immediate (-4)) = .immediate ∧ recordMode (.absoluteShort 0xFFFF) ≠ .addressRegisterDirect ∧
      recordMode (.absoluteShort 0xFFFF) ≠ .immediate) ∧
    ¬ recordInRange (.absoluteShort 0x10000) := by
  refine ⟨⟨by decide, ?_, ?_, rfl⟩, ⟨by decide, trivial, ?_, rfl, by decide, by decide⟩, ?_⟩ <;>
    simp [recordInRange]

theorem witness_ConstructReducesImmediates :
    (-4 : Int) % 2 ^ (8 * 1) = 252 % 2 ^ (8 * 1) ∧ (0 : Int) % 2 ^ (8 * 4) = 4294967296 % 2 ^ (8 * 4) := by decide

theorem witness_StaticLengthIsHalfTheEncoding :
    (Instr.cmpiL 1#32 (.absoluteLong 2#32)).wf = true ∧
    matchesText (Instr.cmpiL 1#32 (.absoluteLong 2#32)).family ['C', 'M', 'P', 'I', '.', 'L'] = true ∧
    suffixWidth ['C', 'M', 'P', 'I', '.', 'L'] = some (Instr.cmpiL 1#32 (.absoluteLong 2#32)).width := by decide

theorem witness_StepRunsTheDecodedInstruction :
    decode demo.fetchWindow = .ok (.cmpW (.postincrement 0) 1) ∧
    decode (start 0x1000 [0x4E#8, 0x71#8]).fetchWindow = .error .noMatch ∧
    decode (start 0x10000 []).fetchWindow = .error .malformed ∧
    decode (start 0x1000 [0xB2#8, 0xC0#8]).fetchWindow = .error .illegalOperand := by decide

theorem witness_StopsAreTheNamedOutcomes :
    (∃ f, step (start 0x1000 [0x4E#8, 0x71#8]) = .fault f) ∧
    (∃ a, step { start 0x1000 [0xB6#8, 0x98#8] with a := #v[0xFFFE#32, 0, 0, 0, 0, 0, 0, 0] } =
      .fault (.accessFault a)) ∧
    (∃ f, exec (.cmpW (.addressRegisterIndirect 1) 0) demo = .fault f) :=
  ⟨⟨.noMatch, eq_of_stopIs (by decide)⟩, ⟨0x10000#32, eq_of_stopIs (by decide)⟩,
    ⟨.accessFault 0x10000#32, eq_of_stopIs (by decide)⟩⟩

theorem witness_PcKeepsItsParity :
    (∃ t, step demo = .next t) ∧ ∃ t, step (start 0x1001 [0xB2#8, 0x00#8]) = .next t :=
  ⟨exists_of_isNext (by decide), exists_of_isNext (by decide)⟩

/-- The second state runs the last two bytes of memory. -/
theorem witness_EachStepRaisesPc :
    (demo.mem.size < 2 ^ 32 ∧ ∃ t, step demo = .next t) ∧
    ((start 0xFFFE [0xB2#8, 0x00#8]).mem.size < 2 ^ 32 ∧ ∃ t, step (start 0xFFFE [0xB2#8, 0x00#8]) = .next t) :=
  ⟨⟨by decide, exists_of_isNext (by decide)⟩, by decide, exists_of_isNext (by decide)⟩

theorem witness_EveryStepKeepsTheCanonicalForm : demo.Inv ∧ ∃ t, step demo = .next t :=
  ⟨demo_wf, exists_of_isNext (by decide)⟩

theorem witness_EveryRunEndsWithinHalfTheMemory : demo.mem.size < 2 ^ 32 := by decide

theorem witness_NoRunWritesDataOrMemory : ∃ t, stepsTo 1 demo = some t := by
  obtain ⟨t, h⟩ := exists_of_isNext (o := step demo) (by decide)
  exact ⟨t, by simp [stepsTo, h]⟩

theorem witness_PlacedInstructionIsTheOneRun :
    demo.mem.wf ∧ demo.pc.toNat + 10 ≤ demo.mem.size ∧
    decodeTableWord 16 0xB2C0 = none ∧ decodeTableWord 16 0xB240 = some (.cmpW (.dataRegisterDirect 0) 1) := by decide

end Sys2Proof.Tests
end

section
/-! The state family (10_state.md): a register read gives the low bytes of the register, and the flags are outputs
only. -/

namespace Sys2Proof.Machine

/-! ### Register reads -/

/-- A register read at width `w` is the register modulo 2^(8w) (R22). -/
theorem toNat_narrow (w : Width) (v : Long) : (narrow w v).toNat = v.toNat % 2 ^ (8 * w.bytes) := by
  rw [← Width.bits_eq_eight_mul_bytes]
  exact BitVec.toNat_setWidth w.bits v

theorem resolve_addressRegister {w : Width} (n : Fin 8) (s : State) :
    resolve (.addressRegisterDirect n : Operand w) s = .ok (narrow w (s.getA n), s) := rfl

/-- Settles O1: a register-direct operand resolves to the narrowed register and the same state. -/
theorem registerDirectReadsLowBytes : Obligations.RegisterDirectReadsLowBytes := by
  intro w n s
  exact ⟨⟨_, resolve_dataRegister n s, toNat_narrow w (s.getD n)⟩,
    ⟨_, resolve_addressRegister n s, toNat_narrow w (s.getA n)⟩⟩

/-! ### Outcomes and flags -/

/-- An outcome with its next state, if it has one, changed; a stop is kept. -/
def mapNext (g : State → State) :
    Host.Outcome State Fault Refusal → Host.Outcome State Fault Refusal
  | .next t => .next (g t)
  | .fault f => .fault f
  | .refused r => .refused r

@[simp] theorem mapNext_next (g : State → State) (t : State) : mapNext g (.next t) = .next (g t) := rfl

@[simp] theorem mapNext_fault (g : State → State) (f : Fault) : mapNext g (.fault f) = .fault f := rfl

@[simp] theorem mapNext_refused (g : State → State) (r : Refusal) :
    mapNext g (.refused r) = .refused r := rfl

/-- `X` replaced and everything else kept. -/
def State.setX (s : State) (x : Bool) : State := { s with flagX := x }

/-- All five flags replaced and everything else kept. -/
def State.withFlags (s : State) (f : Flags) (x : Bool) : State := (s.writeFlags f).setX x

section WithFlags
variable (s : State) (f g : Flags) (x : Bool) (words : Nat)

@[simp] theorem withFlags_mem : (s.withFlags f x).mem = s.mem := rfl

/-- Of flags put in before, a write of the four leaves `X` only. -/
@[simp] theorem withFlags_writeFlags :
    (s.withFlags f x).writeFlags g = (s.writeFlags g).setX x := rfl

@[simp] theorem setX_advance : (s.setX x).advance words = (s.advance words).setX x := rfl

end WithFlags

/-! ### The flags are no input of the resolver -/

/-- A place with the five flags replaced in the state it carries. -/
def Place.withFlags {w : Width} (f : Flags) (x : Bool) : Place w → Place w
  | .dataRegister n => .dataRegister n
  | .addressRegister n => .addressRegister n
  | .literal value => .literal value
  | .memory ea after => .memory ea (after.withFlags f x)

/-- No effective address and no side effect depends on a flag. -/
theorem locate_withFlags {w : Width} (op : Operand w) (s : State) (f : Flags) (x : Bool) :
    locate op (s.withFlags f x) = (locate op s).withFlags f x := by
  cases op <;> rfl

/-- A resolution gives the same value or the same fault whatever the flags, and passes the flags through. -/
theorem resolve_withFlags {w : Width} (op : Operand w) (s : State) (f : Flags) (x : Bool) :
    resolve op (s.withFlags f x) =
      (resolve op s).map fun p => (p.1, p.2.withFlags f x) := by
  unfold resolve
  rw [locate_withFlags]
  cases locate op s with
  | dataRegister n => rfl
  | addressRegister n => rfl
  | literal value => rfl
  | memory ea after =>
    simp only [Place.withFlags, withFlags_mem]
    cases s.mem.read w ea <;> rfl

/-! ### The flags are no input of an instruction -/

/-- A compare overwrites `N`, `Z`, `V`, `C` and carries `X` through, so of the flags before it only `X` is
left, and none of them is read. -/
theorem compareOperands_withFlags {w : Width} (src dst : Operand w) (s : State) (f : Flags)
    (x : Bool) :
    compareOperands src dst (s.withFlags f x) =
      mapNext (fun t => t.setX x) (compareOperands src dst s) := by
  unfold compareOperands
  rw [resolve_withFlags]
  cases resolve src s with
  | error e => rfl
  | ok p =>
    obtain ⟨sv, s1⟩ := p
    simp only [Except.map, resolve_withFlags]
    cases resolve dst s1 with
    | error e => rfl
    | ok q =>
      obtain ⟨dv, s2⟩ := q
      simp only [withFlags_writeFlags, setX_advance, mapNext_next]

/-- Every instruction is a compare, so none reads a flag (R31). -/
theorem exec_withFlags (i : Instr) (s : State) (f : Flags) (x : Bool) :
    exec i (s.withFlags f x) = mapNext (fun t => t.setX x) (exec i s) := by
  simp only [exec_eq_compareOperands, compareOperands_withFlags]

/-- Settles O29: the resolver passes the flags through unread, and the compare overwrites all but `X`. -/
theorem noInstructionReadsAFlag : Obligations.NoInstructionReadsAFlag := by
  intro i s n z v c x
  refine (exec_withFlags i s ⟨n, z, v, c⟩ x).trans ?_
  cases exec i s <;> rfl

end Sys2Proof.Machine
end

section
/-! The fixed-width value family (40_sized_value.md): construction reduces modulo 2^(8w), arithmetic wraps whichever view
reads the operands, comparisons go by the views, and a mask keeps the low bytes. -/

namespace Sys2Proof

/-- The width tags are the byte counts of the three widths (R101). -/
theorem Width.mem_tags_iff {tag : Nat} : tag ∈ [1, 2, 4] ↔ ∃ w : Width, w.bytes = tag := by
  constructor
  · intro h
    simp only [List.mem_cons, List.not_mem_nil, or_false] at h
    obtain rfl | rfl | rfl := h
    · exact ⟨.byte, rfl⟩
    · exact ⟨.word, rfl⟩
    · exact ⟨.long, rfl⟩
  · rintro ⟨w, rfl⟩
    cases w <;> decide

theorem Width.ofBytes_eq_none {tag : Nat} (h : tag ∉ [1, 2, 4]) : Width.ofBytes? tag = none :=
  Option.eq_none_iff_forall_ne_some.mpr fun w hw =>
    h (Width.mem_tags_iff.mpr ⟨w, Width.ofBytes_eq_some.mp hw⟩)

end Sys2Proof

namespace Sys2Proof.Machine

/-! ### The two views of a value -/

section Views
variable {w : Width}

theorem toNat_lt_two_pow (a : Value w) : a.toNat < 2 ^ (8 * w.bytes) := by
  rw [← Width.bits_eq_eight_mul_bytes]
  exact a.isLt

/-- The signed view is the raw number below the sign threshold and a whole range less from there on (R102). -/
theorem toInt_eq_ite (a : Value w) : a.toInt =
    if a.toNat < 2 ^ (8 * w.bytes - 1) then (a.toNat : Int) else (a.toNat : Int) - 2 ^ (8 * w.bytes) := by
  have hhalf : 2 ^ w.bits = 2 * 2 ^ (w.bits - 1) := (mul_pow_sub_one w.bits_pos.ne' 2).symm
  have hbelow : 2 * a.toNat < 2 ^ w.bits ↔ a.toNat < 2 ^ (w.bits - 1) := by omega
  rw [← Width.bits_eq_eight_mul_bytes, BitVec.toInt_eq_toNat_cond, if_congr hbelow rfl rfl]
  push_cast
  rfl

/-- The sign bit is set exactly from the sign threshold on (R102). -/
theorem msb_iff (a : Value w) : a.msb = true ↔ 2 ^ (8 * w.bytes - 1) ≤ a.toNat := by
  rw [← Width.bits_eq_eight_mul_bytes, BitVec.msb_eq_decide, decide_eq_true_iff]

/-- The two views of a value differ by a multiple of 2^(8w) (R103). -/
theorem toInt_modEq_toNat (a : Value w) : a.toInt ≡ (a.toNat : Int) [ZMOD 2 ^ (8 * w.bytes)] := by
  rw [toInt_eq_ite]
  split
  · rfl
  · exact Int.sub_emod_right _ _

/-! ### Wrapping -/

theorem toNat_add_eq_mod (a b : Value w) : (a + b).toNat = (a.toNat + b.toNat) % 2 ^ (8 * w.bytes) := by
  rw [← Width.bits_eq_eight_mul_bytes]
  exact BitVec.toNat_add a b

theorem toNat_sub_eq_emod (a b : Value w) :
    ((a - b).toNat : Int) = ((a.toNat : Int) - b.toNat) % 2 ^ (8 * w.bytes) := by
  have hb := (toNat_lt_two_pow b).le
  have hwrap : (a - b).toNat = (2 ^ (8 * w.bytes) - b.toNat + a.toNat) % 2 ^ (8 * w.bytes) := by
    rw [← Width.bits_eq_eight_mul_bytes]
    exact BitVec.toNat_sub a b
  calc ((a - b).toNat : Int)
      = ((2 : Int) ^ (8 * w.bytes) - b.toNat + a.toNat) % 2 ^ (8 * w.bytes) := by
        rw [hwrap]; push_cast [hb]; rfl
    _ = ((a.toNat : Int) - b.toNat + 2 ^ (8 * w.bytes)) % 2 ^ (8 * w.bytes) := by congr 1; ring
    _ = ((a.toNat : Int) - b.toNat) % 2 ^ (8 * w.bytes) := Int.add_emod_right _ _

theorem toNat_ofInt_eq_emod (w : Width) (m : Int) :
    ((BitVec.ofInt w.bits m).toNat : Int) = m % 2 ^ (8 * w.bytes) := by
  have hpos : (0 : Int) < 2 ^ (8 * w.bytes) := by positivity
  rw [BitVec.toNat_ofInt, Width.bits_eq_eight_mul_bytes]
  push_cast
  exact Int.toNat_of_nonneg (Int.emod_nonneg m hpos.ne')

end Views

/-! ### The operations on values of one width -/

section Operations
variable (w : Width) (a b : Value w)

@[simp] theorem fromSigned_bytes (m : Int) :
    SizedValue.fromSigned w.bytes m = .ok ⟨w, BitVec.ofInt w.bits m⟩ := by
  simp [SizedValue.fromSigned]

@[simp] theorem fromUnsigned_bytes (m : Nat) :
    SizedValue.fromUnsigned w.bytes m = .ok ⟨w, BitVec.ofNat w.bits m⟩ := by
  simp [SizedValue.fromUnsigned]

@[simp] theorem unsigned_mk : (SizedValue.mk w a).unsigned = a.toNat := rfl

@[simp] theorem signed_mk : (SizedValue.mk w a).signed = a.toInt := rfl

@[simp] theorem sign_mk : (SizedValue.mk w a).sign = a.msb := rfl

@[simp] theorem add_mk : SizedValue.add ⟨w, a⟩ ⟨w, b⟩ = .ok ⟨w, a + b⟩ := by
  simp [SizedValue.add]

@[simp] theorem sub_mk : SizedValue.sub ⟨w, a⟩ ⟨w, b⟩ = .ok ⟨w, a - b⟩ := by
  simp [SizedValue.sub]

@[simp] theorem eq_mk : SizedValue.eq ⟨w, a⟩ ⟨w, b⟩ = .ok (decide (a.toNat = b.toNat)) := if_pos rfl

@[simp] theorem ltU_mk : SizedValue.ltU ⟨w, a⟩ ⟨w, b⟩ = .ok (decide (a.toNat < b.toNat)) := if_pos rfl

@[simp] theorem ltS_mk : SizedValue.ltS ⟨w, a⟩ ⟨w, b⟩ = .ok (decide (a.toInt < b.toInt)) := if_pos rfl

theorem mask_of_le {w' : Width} (h : w'.bytes ≤ w.bytes) :
    SizedValue.mask ⟨w, a⟩ w' = some ⟨w', a.setWidth w'.bits⟩ := if_pos h

theorem mask_of_lt {w' : Width} (h : w.bytes < w'.bytes) : SizedValue.mask ⟨w, a⟩ w' = none :=
  if_neg (Nat.not_le.mpr h)

end Operations

/-! ### The obligations -/

/-- Settles O18: at one width the operation is the bit vector's, which wraps; the signed readings give the same
result because the two views agree modulo 2^(8w). -/
theorem arithmeticWrapsAtTheWidth : Obligations.ArithmeticWrapsAtTheWidth := by
  intro w a b
  have hadd := toNat_add_eq_mod a b
  have hsub := toNat_sub_eq_emod a b
  have hviewsAdd := (toInt_modEq_toNat a).add (toInt_modEq_toNat b)
  have hviewsSub := (toInt_modEq_toNat a).sub (toInt_modEq_toNat b)
  refine ⟨⟨_, add_mk w a b, rfl, hadd, ?_⟩, ⟨_, sub_mk w a b, rfl, hsub, hsub.trans hviewsSub.symm⟩⟩
  calc ((a + b).toNat : Int)
      = ((a.toNat : Int) + b.toNat) % 2 ^ (8 * w.bytes) := by rw [hadd]; push_cast; rfl
    _ = (a.toInt + b.toInt) % 2 ^ (8 * w.bytes) := hviewsAdd.symm

/-- Settles O17: a tag of 1, 2 or 4 is the byte count of a width, at which the bit vector of the magnitude is its
residue; any other tag names no width. -/
theorem constructionReducesModuloTheWidth : Obligations.ConstructionReducesModuloTheWidth := by
  refine ⟨fun tag m h => ?_, fun tag m h => ?_, fun tag m k h => ?_,
    fun i => Width.mem_tags_iff.mpr ⟨i.width, rfl⟩⟩
  · obtain ⟨w, rfl⟩ := Width.mem_tags_iff.mp h
    exact ⟨_, fromSigned_bytes w m, rfl, toNat_ofInt_eq_emod w m⟩
  · obtain ⟨w, rfl⟩ := Width.mem_tags_iff.mp h
    refine ⟨_, fromUnsigned_bytes w m, rfl, ?_⟩
    rw [unsigned_mk, BitVec.toNat_ofNat, Width.bits_eq_eight_mul_bytes]
  · simp [SizedValue.fromSigned, SizedValue.fromUnsigned, Width.ofBytes_eq_none h]

/-- Settles O19: the views are those of the bit vector, the comparisons go by them, and a mask not wider than the
value truncates it. -/
theorem valuesCompareAndMaskByTheirViews : Obligations.ValuesCompareAndMaskByTheirViews := by
  intro w w' a b
  refine ⟨toInt_eq_ite a, rfl, msb_iff a, eq_mk w a b, ltU_mk w a b, ltS_mk w a b,
    fun h => ⟨_, mask_of_le w a h, rfl, ?_⟩, mask_of_lt w a⟩
  rw [← Width.bits_eq_eight_mul_bytes]
  exact BitVec.toNat_setWidth w'.bits a

end Sys2Proof.Machine
end

section
/-! The operand family (41_operand_resolution.md): what each mode reads, and that a resolution changes nothing but the
address register an auto mode steps, once. -/

namespace Sys2Proof.Machine

/-! ### Reading through a memory place -/

section MemoryPlace
variable {w : Width} {op : Operand w} {s after : State} {ea : Long}

/-- An operand that points at memory has the value read at its effective address. -/
theorem resolve_ok_of_locate {v : Value w} (h : locate op s = .memory ea after)
    (hv : s.mem.read w ea = .ok v) : resolve op s = .ok (v, after) := by
  simp only [resolve, h, hv]

/-- An operand that points at memory fails as the read at its effective address does. -/
theorem resolve_error_of_locate {f : Fault} (h : locate op s = .memory ea after)
    (hf : s.mem.read w ea = .error f) : resolve op s = .error f := by
  simp only [resolve, h, hf]

end MemoryPlace

/-- A base plus a signed 16-bit displacement, modulo 2^32 (R128). -/
theorem ofInt_add_displacement (base : Long) (disp : Word) :
    BitVec.ofInt 32 (base.toNat + disp.toInt) = base + disp.signExtend 32 := by
  rw [BitVec.ofInt_add, BitVec.ofInt_natCast, BitVec.ofNat_toNat, BitVec.setWidth_eq, BitVec.signExtend]

/-! ### The register side effect -/

/-- Of two writes to one address register the second is left. -/
@[simp] theorem setA_setA_same (s : State) (n : Fin 8) (u v : Long) :
    (s.setA n u).setA n v = s.setA n v := by
  simp [State.setA]

/-- What the side effect of any mode is, in the terms of the rules (R121, R126, R127). -/
theorem afterStep_cases {w : Width} (op : Operand w) (s : State) :
    (∃ n, op = .postincrement n ∧ afterStep op s = s.setA n (s.getA n + autoStep n w)) ∨
    (∃ n, op = .predecrement n ∧ afterStep op s = s.setA n (s.getA n - autoStep n w)) ∨
    ((∀ n, op ≠ .postincrement n) ∧ (∀ n, op ≠ .predecrement n) ∧ afterStep op s = s) := by
  cases op with
  | postincrement n => exact .inl ⟨n, rfl, rfl⟩
  | predecrement n => exact .inr (.inl ⟨n, rfl, rfl⟩)
  | dataRegisterDirect n => exact .inr (.inr ⟨nofun, nofun, rfl⟩)
  | addressRegisterDirect n => exact .inr (.inr ⟨nofun, nofun, rfl⟩)
  | addressRegisterIndirect n => exact .inr (.inr ⟨nofun, nofun, rfl⟩)
  | indirectWithDisplacement n disp => exact .inr (.inr ⟨nofun, nofun, rfl⟩)
  | absoluteShort addr16 => exact .inr (.inr ⟨nofun, nofun, rfl⟩)
  | absoluteLong addr32 => exact .inr (.inr ⟨nofun, nofun, rfl⟩)
  | programCounterDisplacement disp => exact .inr (.inr ⟨nofun, nofun, rfl⟩)
  | immediate value => exact .inr (.inr ⟨nofun, nofun, rfl⟩)

section Twice
variable {w : Width} (n : Fin 8) (s : State)

/-- Two postincrements move the register up by two steps (R133). -/
theorem afterStep_postincrement_twice :
    afterStep (.postincrement n : Operand w) (afterStep (.postincrement n : Operand w) s) =
      s.setA n (s.getA n + autoStep n w + autoStep n w) := by
  simp only [afterStep, getA_setA_same, setA_setA_same]

/-- Two predecrements move the register down by two steps (R133). -/
theorem afterStep_predecrement_twice :
    afterStep (.predecrement n : Operand w) (afterStep (.predecrement n : Operand w) s) =
      s.setA n (s.getA n - autoStep n w - autoStep n w) := by
  simp only [afterStep, getA_setA_same, setA_setA_same]

end Twice

/-- Two operands resolved one after the other in their own states leave both side effects, in that order. -/
theorem resolve_twice_ok_state {w : Width} {op op' : Operand w} {s s₁ s₂ : State} {v₁ v₂ : Value w}
    (h₁ : resolve op s = .ok (v₁, s₁)) (h₂ : resolve op' s₁ = .ok (v₂, s₂)) :
    s₂ = afterStep op' (afterStep op s) := by
  rw [← resolve_ok_state h₁]
  exact resolve_ok_state h₂

/-- Twice the step (R125, R133): it is the width, but 2 for the stack pointer at byte width. -/
theorem toNat_autoStep_add_autoStep (n : Fin 8) (w : Width) :
    (autoStep n w + autoStep n w).toNat = if n = spIndex ∧ w = .byte then 4 else 2 * w.bytes := by
  unfold autoStep
  split
  · rfl
  · cases w <;> rfl

/-! ### The side effect in an instruction -/

/-- A compare leaves the address registers as the side effects of its two operands do. -/
theorem compareOperands_next_a {w : Width} {src dst : Operand w} {s t : State}
    (h : compareOperands src dst s = .next t) : t.a = (afterStep dst (afterStep src s)).a := by
  obtain ⟨sv, dv, -, -, rfl⟩ := compareOperands_next h
  rw [advance_a, writeFlags_a]

/-- `CMP` applies the side effect of its source once: its destination has none. -/
theorem exec_cmp_next_a {w : Width} {src : Operand w} {dn : Fin 8} {s t : State}
    (h : exec (Instr.cmp w src dn) s = .next t) : t.a = (afterStep src s).a :=
  compareOperands_next_a ((exec_cmp w src dn s).symm.trans h)

/-- `CMPI` applies the side effect of its destination once: its source has none. -/
theorem exec_cmpi_next_a {w : Width} {value : Value w} {dst : Operand w} {s t : State}
    (h : exec (Instr.cmpi w value dst) s = .next t) : t.a = (afterStep dst s).a :=
  compareOperands_next_a ((exec_cmpi w value dst s).symm.trans h)

/-! ### The obligations -/

/-- Settles O2: each of the three modes points at memory at its address, with the state unchanged. -/
theorem plainMemoryModesReadAtTheirAddress : Obligations.PlainMemoryModesReadAtTheirAddress := by
  intro w s op ea hop
  have hplace : locate op s = .memory ea s := by
    rcases hop with ⟨n, rfl, rfl⟩ | ⟨n, disp, rfl, rfl⟩ | rfl
    · rfl
    · rw [ofInt_add_displacement]
      rfl
    · rfl
  exact ⟨fun v => resolve_ok_of_locate hplace, fun f => resolve_error_of_locate hplace⟩

/-- Settles O3: an immediate points at its literal. -/
theorem immediateNeedsNoMemory : Obligations.ImmediateNeedsNoMemory :=
  fun _ value s => resolve_immediate value s

/-- Settles O7: a resolution that answers leaves the state its side effect leaves, which only the auto modes have. -/
theorem resolveChangesOnlyTheSteppedRegister : Obligations.ResolveChangesOnlyTheSteppedRegister := by
  intro w op s
  rcases resolve_cases op s with ⟨-, v, hv⟩ | ⟨-, ea, i, -, -, hf⟩
  · exact .inl ⟨v, afterStep op s, hv, afterStep_cases op s⟩
  · exact .inr ⟨ea + BitVec.ofNat 32 i, hf⟩

/-- Settles O8: each resolution composes one side effect, and an instruction that completes holds that of its one
memory operand. -/
theorem sideEffectOncePerResolution : Obligations.SideEffectOncePerResolution := by
  intro w n s
  refine ⟨toNat_autoStep_add_autoStep n w, fun v₁ s₁ h₁ => ⟨resolve_ok_state h₁, fun v₂ s₂ h₂ => ?_⟩,
    fun v₁ s₁ h₁ => ⟨resolve_ok_state h₁, fun v₂ s₂ h₂ => ?_⟩, fun dn t => exec_cmp_next_a,
    fun dn t => exec_cmp_next_a, fun value t => exec_cmpi_next_a, fun value t => exec_cmpi_next_a⟩
  · exact (resolve_twice_ok_state h₁ h₂).trans (afterStep_postincrement_twice n s)
  · exact (resolve_twice_ok_state h₁ h₂).trans (afterStep_predecrement_twice n s)

end Sys2Proof.Machine
end

section
/-! The decoder and dispatch family (42_decoder_dispatch.md section 6): an encoded instruction decodes to itself, and any
shorter part of its encoding is malformed. -/

namespace Sys2Proof

/-! ### The bytes of an encoding -/

theorem length_encode (i : Instr) : (encode i).length = 2 * i.lengthWords := by
  rw [encode, length_bytesOfWords, length_encodeWords]

theorem encode_cmp {w : Width} (src : Operand w) (dn : Fin 8) :
    encode (Instr.cmp w src dn) = bytesOfWords (cmpWords src dn) :=
  congrArg bytesOfWords (encodeWords_cmp w src dn)

theorem encode_cmpi {w : Width} (value : Value w) (dst : Operand w) :
    encode (Instr.cmpi w value dst) = bytesOfWords (cmpiWords value dst) :=
  congrArg bytesOfWords (encodeWords_cmpi w value dst)

/-- The opcode word is the first word of the encoding, whatever bytes follow. -/
theorem wordAt_encode_cmp_zero {w : Width} (src : Operand w) (dn : Fin 8) (rest : List Byte) :
    wordAt (encode (Instr.cmp w src dn) ++ rest) 0 = cmpOpcode src dn := by
  rw [encode_cmp]
  exact wordAt_bytesOfWords (cmpWords src dn) rest 0 (Nat.succ_pos _)

theorem wordAt_encode_cmpi_zero {w : Width} (value : Value w) (dst : Operand w) (rest : List Byte) :
    wordAt (encode (Instr.cmpi w value dst) ++ rest) 0 = cmpiOpcode dst := by
  rw [encode_cmpi]
  exact wordAt_bytesOfWords (cmpiWords value dst) rest 0 (Nat.succ_pos _)

/-- The words of the source of `CMP` stand after the opcode word (R75). -/
theorem wordAt_encode_cmp_src {w : Width} (src : Operand w) (dn : Fin 8) (rest : List Byte) (k : Nat)
    (hk : k < (extWords src).length) :
    wordAt (encode (Instr.cmp w src dn) ++ rest) (1 + k) = (extWords src)[k] := by
  have hlt : 1 + k < (cmpWords src dn).length := by simp only [cmpWords, List.length_cons]; omega
  rw [encode_cmp, wordAt_bytesOfWords _ rest _ hlt]
  simp only [cmpWords, Nat.add_comm 1 k, List.getElem_cons_succ]

/-- The words of the immediate of `CMPI` stand after the opcode word (R75). -/
theorem wordAt_encode_cmpi_value {w : Width} (value : Value w) (dst : Operand w) (rest : List Byte)
    (k : Nat) (hk : k < (immediateWords w value).length) :
    wordAt (encode (Instr.cmpi w value dst) ++ rest) (1 + k) = (immediateWords w value)[k] := by
  have hlt : 1 + k < (cmpiWords value dst).length := by
    simp only [cmpiWords, List.length_cons, List.length_append]; omega
  rw [encode_cmpi, wordAt_bytesOfWords _ rest _ hlt]
  simp only [cmpiWords, Nat.add_comm 1 k, List.getElem_cons_succ, List.getElem_append_left hk]

/-- The words of the destination of `CMPI` stand after those of the immediate (R75). -/
theorem wordAt_encode_cmpi_dst {w : Width} (value : Value w) (dst : Operand w) (rest : List Byte)
    (k : Nat) (hk : k < (extWords dst).length) :
    wordAt (encode (Instr.cmpi w value dst) ++ rest) (1 + AddrMode.immediate.ext w + k) =
      (extWords dst)[k] := by
  have hindex : 1 + AddrMode.immediate.ext w + k = (immediateWords w value).length + k + 1 := by
    rw [length_immediateWords]; omega
  have hlt : (immediateWords w value).length + k + 1 < (cmpiWords value dst).length := by
    simp only [cmpiWords, List.length_cons, List.length_append]; omega
  rw [hindex, encode_cmpi, wordAt_bytesOfWords _ rest _ hlt]
  simp [cmpiWords]

/-! ### Decoding an encoding -/

/-- `CMP`: the opcode word gives the fields, the words after it the source. -/
theorem decode_encode_cmp {w : Width} (src : Operand w) (dn : Fin 8) (rest : List Byte) :
    decode (encode (Instr.cmp w src dn) ++ rest) = .ok (Instr.cmp w src dn) := by
  have hlen : 2 + 2 * src.mode.ext w ≤ (encode (Instr.cmp w src dn) ++ rest).length := by
    rw [List.length_append, length_encode, lengthWords_cmp]; omega
  rw [decode_cmpOpcode src dn (by omega) (wordAt_encode_cmp_zero src dn rest),
    if_neg (Nat.not_lt.mpr hlen), operandOf_of_words src _ 1 (wordAt_encode_cmp_src src dn rest)]

/-- `CMPI`: the opcode word gives the fields, the words after it the immediate, then the destination. -/
theorem decode_encode_cmpi {w : Width} (value : Value w) {dst : Operand w}
    (hd : dst.mode.cmpiDestination = true) (rest : List Byte) :
    decode (encode (Instr.cmpi w value dst) ++ rest) = .ok (Instr.cmpi w value dst) := by
  have himm := one_le_ext_immediate w
  have hlen : 2 + 2 * AddrMode.immediate.ext w + 2 * dst.mode.ext w ≤
      (encode (Instr.cmpi w value dst) ++ rest).length := by
    rw [List.length_append, length_encode, lengthWords_cmpi]; omega
  rw [decode_cmpiOpcode dst hd (by omega) (wordAt_encode_cmpi_zero value dst rest),
    if_neg (Nat.not_lt.mpr hlen),
    immediateAt_of_words value _ 1 (wordAt_encode_cmpi_value value dst rest),
    operandOf_of_words dst _ _ (wordAt_encode_cmpi_dst value dst rest)]

/-- The round trip from an instruction, whatever bytes follow its encoding. -/
theorem decode_encode_append {i : Instr} (hi : i.wf = true) (rest : List Byte) :
    decode (encode i ++ rest) = .ok i := by
  rcases instr_cases i with ⟨w, src, dn, rfl⟩ | ⟨w, value, dst, rfl⟩
  · exact decode_encode_cmp src dn rest
  · exact decode_encode_cmpi value (wf_cmpi w value dst ▸ hi) rest

/-! ### Too few bytes -/

theorem decodeCmpi_malformed_of_lt_two {b : List Byte} (h : b.length < 2) :
    decodeCmpi b = .error .malformed := if_pos h

/-- A word with the `CMPI` tag needs the four bytes of the family's shortest instruction (R173). -/
theorem decodeCmpi_malformed_of_lt_four {b : List Byte} (h2 : 2 ≤ b.length) (h4 : b.length < 4)
    (htag : (wordAt b 0).extractLsb' 8 8 = tagCmpi) : decodeCmpi b = .error .malformed := by
  rw [decodeCmpi, if_neg (Nat.not_lt.mpr h2), if_neg (not_not_intro htag), if_pos h4]

/-- That the probed family finds too few bytes is the dispatcher's answer (R174). -/
theorem decode_malformed_of_decodeCmpi {b : List Byte} (h : decodeCmpi b = .error .malformed) :
    decode b = .error .malformed := by
  rw [decode, h]

/-- Fewer bytes than a `CMP` instruction needs are malformed, whether or not its opcode word is among them. -/
theorem decode_malformed_of_cmp {w : Width} {src : Operand w} {dn : Fin 8} {b : List Byte}
    (hop : 2 ≤ b.length → wordAt b 0 = cmpOpcode src dn)
    (hlen : b.length < 2 * (Instr.cmp w src dn).lengthWords) : decode b = .error .malformed := by
  rw [lengthWords_cmp] at hlen
  by_cases h2 : 2 ≤ b.length
  · rw [decode_cmpOpcode src dn h2 (hop h2), if_pos (by omega)]
  · exact decode_malformed_of_decodeCmpi (decodeCmpi_malformed_of_lt_two (Nat.lt_of_not_le h2))

/-- Fewer bytes than a legal `CMPI` instruction needs are malformed, whether or not its opcode word and the
family's minimum of four bytes are among them. -/
theorem decode_malformed_of_cmpi {w : Width} {value : Value w} {dst : Operand w} {b : List Byte}
    (hd : dst.mode.cmpiDestination = true) (hop : 2 ≤ b.length → wordAt b 0 = cmpiOpcode dst)
    (hlen : b.length < 2 * (Instr.cmpi w value dst).lengthWords) : decode b = .error .malformed := by
  rw [lengthWords_cmpi] at hlen
  by_cases h4 : 4 ≤ b.length
  · rw [decode_cmpiOpcode dst hd h4 (hop (by omega)), if_pos (by omega)]
  · by_cases h2 : 2 ≤ b.length
    · have htag : (wordAt b 0).extractLsb' 8 8 = tagCmpi := by
        rw [hop h2]; exact cmpiFields_tag _ _ _ _
      exact decode_malformed_of_decodeCmpi
        (decodeCmpi_malformed_of_lt_four h2 (Nat.lt_of_not_le h4) htag)
    · exact decode_malformed_of_decodeCmpi (decodeCmpi_malformed_of_lt_two (Nat.lt_of_not_le h2))

/-- A first part of at least two bytes has the same first word. -/
theorem wordAt_take_zero {b : List Byte} {n : Nat} (h : 2 ≤ (b.take n).length) :
    wordAt (b.take n) 0 = wordAt b 0 := by
  have happ := wordAt_append (b.take n) (b.drop n) 0 h
  rw [List.take_append_drop] at happ
  exact happ.symm

/-- A part shorter than the encoding lacks bytes the instruction needs (R172, D22). -/
theorem decode_take_encode {i : Instr} (hi : i.wf = true) {n : Nat} (hn : n < 2 * i.lengthWords) :
    decode ((encode i).take n) = .error .malformed := by
  have hlen : ((encode i).take n).length < 2 * i.lengthWords :=
    (List.length_take_le n _).trans_lt hn
  rcases instr_cases i with ⟨w, src, dn, rfl⟩ | ⟨w, value, dst, rfl⟩
  · refine decode_malformed_of_cmp (fun h2 => ?_) hlen
    rw [wordAt_take_zero h2]
    simpa using wordAt_encode_cmp_zero src dn []
  · refine decode_malformed_of_cmpi (wf_cmpi w value dst ▸ hi) (fun h2 => ?_) hlen
    rw [wordAt_take_zero h2]
    simpa using wordAt_encode_cmpi_zero value dst []

/-- Settles O32: the decoder finds the fields in the opcode word and the payloads in the words after it, and its
length checks turn away any shorter part of the encoding. -/
theorem decodeOfEncodeIsTheInstruction : Obligations.DecodeOfEncodeIsTheInstruction :=
  fun i hi => ⟨length_encode i, decode_encode_append hi, fun _ => decode_take_encode hi⟩

end Sys2Proof
end

section
/-! The flag generator (43_flag_generator.md): Carry as an order of numbers, and as a borrow. -/

namespace Sys2Proof.Machine

/-- Carry goes by the unsigned order (R190, R197). -/
theorem subFlags_c_iff {w : Width} (src dst : Value w) :
    (subFlags src dst).c = true ↔ dst.toNat < src.toNat :=
  decide_eq_true_iff

/-- Settles O15: Carry goes by the unsigned order, and the smaller number minus the larger is negative. -/
theorem carryIsTheUnsignedBorrow : Obligations.CarryIsTheUnsignedBorrow := by
  intro w src dst
  calc (subFlags src dst).c = true
    _ ↔ dst.toNat < src.toNat := subFlags_c_iff src dst
    _ ↔ (dst.toNat : Int) < src.toNat := Nat.cast_lt.symm
    _ ↔ (dst.toNat : Int) - src.toNat < 0 := sub_neg.symm

end Sys2Proof.Machine
end

section
/-! The compare-registers family (44_cmp.md): what `CMP` does where its source is readable and where it is not, and how
far it moves `pc`. -/

namespace Sys2Proof.Machine

/-- The side effect of an operand touches nothing but the address registers (R121). -/
theorem afterStep_eq_with_a {w : Width} (op : Operand w) (s : State) :
    afterStep op s = { s with a := (afterStep op s).a } := by cases op <;> rfl

/-- Where the value and the state of a source are known, `CMP` completes with the flags of `Dn` minus that value:
its destination needs no memory and has no side effect (R211). -/
theorem exec_cmp_of_resolve {w : Width} {src : Operand w} {s s₁ : State} {v : Value w} (dn : Fin 8)
    (h : resolve src s = .ok (v, s₁)) :
    exec (Instr.cmp w src dn) s =
      .next ((s₁.writeFlags (subFlags v (narrow w (s₁.getD dn)))).advance (1 + src.mode.ext w)) := by
  rw [exec_cmp, compareOperands, h]
  rfl

/-- A fault of the source is the whole outcome of `CMP` (R214). -/
theorem exec_cmp_of_resolve_error {w : Width} {src : Operand w} {s : State} {f : Fault} (dn : Fin 8)
    (h : resolve src s = .error f) : exec (Instr.cmp w src dn) s = .fault f := by
  rw [exec_cmp, compareOperands, h]

/-- What `CMP` can do, once: with a readable source it completes, and otherwise it is the `AccessFault` of the first
missing byte of the source (R211, R214). -/
theorem exec_cmp_cases {w : Width} (src : Operand w) (dn : Fin 8) (s : State) :
    (readable src s = true ∧ ∃ v, resolve src s = .ok (v, afterStep src s) ∧
      exec (Instr.cmp w src dn) s = .next (((afterStep src s).writeFlags
        (subFlags v (narrow w (s.getD dn)))).advance (1 + src.mode.ext w))) ∨
    (readable src s = false ∧ ∃ ea i, locate src s = .memory ea (afterStep src s) ∧
      s.mem.firstMissing ea w.bytes i ∧
      exec (Instr.cmp w src dn) s = .fault (.accessFault (ea + BitVec.ofNat 32 i))) := by
  rcases resolve_cases src s with ⟨hr, v, hv⟩ | ⟨hr, ea, i, hl, hi, hf⟩
  · have hd : (afterStep src s).getD dn = s.getD dn := by rw [State.getD, afterStep_d]; rfl
    exact .inl ⟨hr, v, hv, hd ▸ exec_cmp_of_resolve dn hv⟩
  · exact .inr ⟨hr, ea, i, hl, hi, exec_cmp_of_resolve_error dn hf⟩

/-- A completed `CMP` advances `pc` by twice its length in words (R213). -/
theorem exec_cmp_next_pc {w : Width} {src : Operand w} {dn : Fin 8} {s t : State}
    (h : exec (Instr.cmp w src dn) s = .next t) :
    t.pc = s.pc + BitVec.ofNat 32 (2 * (1 + src.mode.ext w)) := by
  rcases exec_cmp_cases src dn s with ⟨-, v, -, hn⟩ | ⟨-, ea, i, -, -, hf⟩
  · obtain rfl := Host.Outcome.next.inj (hn.symm.trans h)
    rw [advance_pc, writeFlags_pc, afterStep_pc]
  · rw [hf] at h; cases h

/-! ### The obligations -/

/-- Settles O21: a readable source resolves, and its resolution touches only the stepped address register. -/
theorem cmpCompletesWithTheFlagsOfTheDifference :
    Obligations.CmpCompletesWithTheFlagsOfTheDifference := by
  intro w src dn s hr
  rcases exec_cmp_cases src dn s with ⟨-, v, hv, hn⟩ | ⟨hnr, -⟩
  · refine ⟨v, afterStep src s, hv, afterStep_eq_with_a src s, fun k => afterStep_getA_other s, ?_⟩
    rw [hn, State.advance, writeFlags_pc, afterStep_pc]
    rfl
  · exact absurd (hr.symm.trans hnr) nofun

/-- Settles O25: `CMP` faults as its source does, and a fault carries no state. -/
theorem cmpStopsOnlyOnAMissingSourceByte : Obligations.CmpStopsOnlyOnAMissingSourceByte := by
  intro w src dn s
  rcases exec_cmp_cases src dn s with ⟨hr, v, -, hn⟩ | ⟨hr, ea, i, hl, hi, hf⟩
  · exact ⟨fun hnr => absurd (hr.symm.trans hnr) nofun, fun _ => ⟨_, hn⟩⟩
  · refine ⟨fun _ => ⟨ea, afterStep src s, i, hl, hi, hf, ?_⟩, fun hr' => absurd (hr.symm.trans hr') nofun⟩
    rw [hf, State.after]

/-- Settles O23: the length of `CMP` is one word and the extension words of its source, two for an absolute long
address and a long immediate. -/
theorem cmpAdvancesPcByItsLength : Obligations.CmpAdvancesPcByItsLength := by
  intro w src dn s t h
  rw [exec_cmp_next_pc h]
  cases src with
  | immediate value => cases w <;> rfl
  | dataRegisterDirect n => rfl
  | addressRegisterDirect n => rfl
  | addressRegisterIndirect n => rfl
  | postincrement n => rfl
  | predecrement n => rfl
  | indirectWithDisplacement n disp => rfl
  | absoluteShort addr16 => rfl
  | absoluteLong addr32 => rfl
  | programCounterDisplacement disp => rfl

end Sys2Proof.Machine
end

section
/-! The compare-immediate family (45_cmpi.md): what `CMPI` does where its destination is readable and where it is not,
and how far it moves `pc`. -/

namespace Sys2Proof.Machine

/-- What `CMPI` can do, once: its literal needs no memory, so with a readable destination it completes, and otherwise
it is the `AccessFault` of the first missing byte of the destination (R221, R224). -/
theorem exec_cmpi_cases {w : Width} (value : Value w) (dst : Operand w) (s : State) :
    (readable dst s = true ∧ ∃ v, resolve dst s = .ok (v, afterStep dst s) ∧
      exec (Instr.cmpi w value dst) s = .next (((afterStep dst s).writeFlags
        (subFlags value v)).advance (1 + AddrMode.immediate.ext w + dst.mode.ext w))) ∨
    (readable dst s = false ∧ ∃ ea i, locate dst s = .memory ea (afterStep dst s) ∧
      s.mem.firstMissing ea w.bytes i ∧
      exec (Instr.cmpi w value dst) s = .fault (.accessFault (ea + BitVec.ofNat 32 i))) := by
  simp only [exec_cmpi, compareOperands, resolve_immediate]
  rcases resolve_cases dst s with ⟨hr, v, hv⟩ | ⟨hr, ea, i, hl, hi, hf⟩
  · refine .inl ⟨hr, v, hv, ?_⟩
    rw [hv]
    rfl
  · refine .inr ⟨hr, ea, i, hl, hi, ?_⟩
    rw [hf]

/-- A completed `CMPI` advances `pc` by twice its length in words (R223). -/
theorem exec_cmpi_next_pc {w : Width} {value : Value w} {dst : Operand w} {s t : State}
    (h : exec (Instr.cmpi w value dst) s = .next t) :
    t.pc = s.pc + BitVec.ofNat 32 (2 * (1 + AddrMode.immediate.ext w + dst.mode.ext w)) := by
  rcases exec_cmpi_cases value dst s with ⟨-, v, -, hn⟩ | ⟨-, ea, i, -, -, hf⟩
  · obtain rfl := Host.Outcome.next.inj (hn.symm.trans h)
    rw [advance_pc, writeFlags_pc, afterStep_pc]
  · rw [hf] at h; cases h

/-- The opcode word and the literal of `CMPI` take 4 bytes, and 6 at long width (R223). -/
theorem ofNat_bytes_opcode_immediate (w : Width) :
    BitVec.ofNat 32 (2 * (1 + AddrMode.immediate.ext w)) = if w = .long then 6#32 else 4#32 := by
  cases w <;> rfl

/-- The extension words of a destination of `CMPI` take 2 bytes for a short address or a displacement, 4 for a long
address, and there are no others (R71, R223). -/
theorem ofNat_bytes_ext_of_cmpiDestination {t : AddrMode} (ht : t.cmpiDestination = true) (w : Width) :
    BitVec.ofNat 32 (2 * t.ext w) =
      if t = .indirectWithDisplacement ∨ t = .programCounterDisplacement ∨ t = .absoluteShort then 2#32
      else if t = .absoluteLong then 4#32 else 0#32 := by
  cases t with
  | immediate => exact absurd ht nofun
  | addressRegisterDirect => exact absurd ht nofun
  | dataRegisterDirect => rfl
  | addressRegisterIndirect => rfl
  | postincrement => rfl
  | predecrement => rfl
  | indirectWithDisplacement => rfl
  | absoluteShort => rfl
  | absoluteLong => rfl
  | programCounterDisplacement => rfl

/-! ### The obligations -/

/-- Settles O22: a readable destination resolves, and its resolution touches only the stepped address register. -/
theorem cmpiCompletesWithTheFlagsOfTheDifference :
    Obligations.CmpiCompletesWithTheFlagsOfTheDifference := by
  intro w value dst s _ hr
  rcases exec_cmpi_cases value dst s with ⟨-, v, hv, hn⟩ | ⟨hnr, -⟩
  · refine ⟨v, afterStep dst s, hv, afterStep_eq_with_a dst s, fun k => afterStep_getA_other s, ?_⟩
    rw [hn, State.advance, writeFlags_pc, afterStep_pc]
    rfl
  · exact absurd (hr.symm.trans hnr) nofun

/-- Settles O26: `CMPI` faults as its destination does, and a fault carries no state. -/
theorem cmpiStopsOnlyOnAMissingDestinationByte : Obligations.CmpiStopsOnlyOnAMissingDestinationByte := by
  intro w value dst s _
  rcases exec_cmpi_cases value dst s with ⟨hr, v, -, hn⟩ | ⟨hr, ea, i, hl, hi, hf⟩
  · exact ⟨fun hnr => absurd (hr.symm.trans hnr) nofun, fun _ => ⟨_, hn⟩⟩
  · refine ⟨fun _ => ⟨ea, afterStep dst s, i, hl, hi, hf, ?_⟩, fun hr' => absurd (hr.symm.trans hr') nofun⟩
    rw [hf, State.after]

/-- Settles O24: the length of `CMPI` is that of the opcode word and the literal, and then that of the extension words
of its destination. -/
theorem cmpiAdvancesPcByItsLength : Obligations.CmpiAdvancesPcByItsLength := by
  intro w value dst s t hwf h
  rw [wf_cmpi] at hwf
  rw [exec_cmpi_next_pc h, Nat.mul_add, BitVec.ofNat_add, ← BitVec.add_assoc,
    ofNat_bytes_opcode_immediate, ofNat_bytes_ext_of_cmpiDestination hwf]

end Sys2Proof.Machine
end

section
/-! The step family (46_step.md): what an instruction can answer, and the state the host finds after a step. -/

namespace Sys2Proof.Machine

@[simp] theorem after_next (s t : State) : s.after (.next t) = t := rfl

@[simp] theorem after_fault (s : State) (f : Fault) : s.after (.fault f) = s := rfl

/-- What an instruction can answer, once: it is a compare, so a next state or an `AccessFault`, and no refusal
(R230, R245). -/
theorem exec_next_or_accessFault (i : Instr) (s : State) :
    (∃ t, exec i s = .next t) ∨ ∃ a, exec i s = .fault (.accessFault a) := by
  rw [exec_eq_compareOperands]
  rcases compareOperands_cases i.src i.dst s with ⟨sv, dv, -, -, hn⟩ | ⟨a, hf⟩
  · exact .inl ⟨_, hn⟩
  · exact .inr ⟨a, hf⟩

/-- Settles O45: the decoded instruction gives the next state or an `AccessFault`, a rejected window gives a fault, and
a fault carries no state. -/
theorem stepIsAllOrNothing : Obligations.StepIsAllOrNothing := by
  intro s
  rcases step_cases s with ⟨i, hd, hs⟩ | ⟨r, -, hs⟩
  · rcases exec_next_or_accessFault i s with ⟨t, ht⟩ | ⟨a, ha⟩
    · have hst : step s = .next t := hs.trans ht
      exact .inl ⟨t, i, hst, by rw [hst, after_next], hd, ht⟩
    · have hst : step s = .fault (.accessFault a) := hs.trans ha
      exact .inr ⟨_, hst, by rw [hst, after_fault]⟩
  · exact .inr ⟨_, hs, by rw [hs, after_fault]⟩

end Sys2Proof.Machine
end

section
/-! Steps and runs (46_step.md): an instruction and a step change nothing but the stepped address register, the four
flags and `pc`, so a run writes no data register, no memory and not `X`, keeps the canonical form of memory, and moves
`pc` evenly. -/

namespace Sys2Proof.Machine

/-! ### One instruction -/

section ExecNext
variable {i : Instr} {s t : State}

/-- What a completed instruction leaves, field by field: only the address registers, the four flags and `pc` can
differ (R211, R221). -/
theorem exec_next_frame (h : exec i s = .next t) :
    t.d = s.d ∧ t.a = (afterStep i.dst (afterStep i.src s)).a ∧
    t.pc = s.pc + BitVec.ofNat 32 (2 * i.lengthWords) ∧ t.flagX = s.flagX ∧ t.mem = s.mem := by
  rw [exec_eq_compareOperands] at h
  obtain ⟨sv, dv, -, -, rfl⟩ := compareOperands_next h
  simp [Instr.lengthWords]

theorem exec_next_pc (h : exec i s = .next t) : t.pc = s.pc + BitVec.ofNat 32 (2 * i.lengthWords) := by
  obtain ⟨-, -, hpc, -, -⟩ := exec_next_frame h
  exact hpc

end ExecNext

/-- An instruction has one to five words (R81). -/
theorem lengthWords_bounds (i : Instr) : 1 ≤ i.lengthWords ∧ i.lengthWords ≤ 5 := by
  rcases instr_cases i with ⟨w, src, dn, rfl⟩ | ⟨w, value, dst, rfl⟩
  · have hcmp := Laws.LengthBounds.cmp_of_ext w src dn
    omega
  · have hcmpi := Laws.LengthBounds.cmpi_of_ext w value dst
    omega

/-! ### One step -/

/-- What a step that answers leaves: data registers, `X` and memory are as before, `pc` has moved by the words of the
instruction. -/
theorem step_next_frame {s t : State} (h : step s = .next t) :
    t.d = s.d ∧ t.flagX = s.flagX ∧ t.mem = s.mem ∧
    ∃ n, 1 ≤ n ∧ n ≤ 5 ∧ t.pc = s.pc + BitVec.ofNat 32 (2 * n) := by
  obtain ⟨i, -, hi⟩ := step_next h
  obtain ⟨hd, -, hpc, hx, hm⟩ := exec_next_frame hi
  obtain ⟨hlow, hhigh⟩ := lengthWords_bounds i
  exact ⟨hd, hx, hm, i.lengthWords, hlow, hhigh, hpc⟩

theorem step_next_mem {s t : State} (h : step s = .next t) : t.mem = s.mem := by
  obtain ⟨-, -, hm, -⟩ := step_next_frame h
  exact hm

/-! ### Runs -/

/-- A run of `k + 1` steps is a step and a run of `k` from there (R232). -/
theorem stepsTo_succ {k : Nat} {s t : State} :
    stepsTo (k + 1) s = some t ↔ ∃ u, step s = .next u ∧ stepsTo k u = some t := by
  rw [stepsTo]
  cases step s <;> simp

/-- Settles O52: by induction on the number of steps, each of which keeps data registers, `X` and memory and moves `pc`
by one to five words. -/
theorem noRunWritesDataOrMemory : Obligations.NoRunWritesDataOrMemory := by
  intro k
  induction k with
  | zero =>
    intro s t h
    obtain rfl := Option.some.inj h
    exact ⟨rfl, rfl, rfl, 0, le_rfl, le_rfl, by simp⟩
  | succ k ih =>
    intro s t h
    obtain ⟨u, hstep, hrun⟩ := stepsTo_succ.mp h
    obtain ⟨hd, hx, hm, n, hn1, hn5, hpc⟩ := step_next_frame hstep
    obtain ⟨hd', hx', hm', n', hlow, hhigh, hpc'⟩ := ih u t hrun
    refine ⟨hd'.trans hd, hx'.trans hx, hm'.trans hm, n + n', by omega, by omega, ?_⟩
    rw [hpc', hpc, BitVec.add_assoc, ← BitVec.ofNat_add, ← Nat.mul_add]

/-- A write of the host keeps the size of memory. -/
theorem hostAction_keeps_size (s : State) (x : HostAction) : (x.apply s).mem.size = s.mem.size := by
  cases x with
  | writeByte a b => exact setByte_size s.mem a b
  | writeD n v => rfl
  | writeA n v => rfl
  | writePc v => rfl
  | writeN b => rfl
  | writeZ b => rfl
  | writeV b => rfl
  | writeC b => rfl
  | writeX b => rfl

/-- Settles O50: a step leaves memory as it is, and the host's byte store keeps the form and the size. -/
theorem everyStepKeepsTheCanonicalForm : Obligations.EveryStepKeepsTheCanonicalForm := by
  refine ⟨fun s t hinv h => ?_, fun s x hinv => ⟨hostAction_keeps_wf hinv x, hostAction_keeps_size s x⟩⟩
  rw [State.Inv, step_next_mem h]
  exact ⟨hinv, rfl⟩

/-- Settles O49: after reset no byte is listed, and the size lies between the bounds. -/
theorem resetKeepsTheCanonicalForm : Obligations.ResetKeepsTheCanonicalForm :=
  ⟨by decide, by decide, List.Pairwise.nil, nofun⟩

/-! ### What an instruction leaves, and its length -/

/-- Settles O27: `pc` moves by twice the length in words, which is the length of the encoding. -/
theorem pcAdvancesByTheEncodedLength : Obligations.PcAdvancesByTheEncodedLength := by
  intro i s t _ h
  rw [length_encode]
  exact exec_next_pc h

/-- Settles O28: the frame of a compare, and of its two side effects on the address registers. -/
theorem compareLeavesEverythingElse : Obligations.CompareLeavesEverythingElse := by
  intro i s t _ h
  obtain ⟨hd, ha, -, hx, hm⟩ := exec_next_frame h
  refine ⟨fun n => by rw [hd], fun n hsrc hdst => ?_, hx, by rw [hm], fun a => by rw [hm]⟩
  calc t.a[n] = (afterStep i.dst (afterStep i.src s)).getA n := by rw [ha]; rfl
    _ = (afterStep i.src s).getA n := afterStep_getA_other _ hdst
    _ = s.getA n := afterStep_getA_other s hsrc

/-! ### Where `pc` goes -/

/-- An instruction that was fetched ends within memory (R53, D21). -/
theorem decode_fetchWindow_end {s : State} {i : Instr} (h : decode s.fetchWindow = .ok i) :
    s.pc.toNat + 2 * i.lengthWords ≤ s.mem.size := by
  have hlen := decode_ok_length h
  have hpos := (lengthWords_bounds i).1
  rw [length_fetchWindow] at hlen
  omega

/-- Settles O47: `pc` moves by an even number, and 2^32 is even. -/
theorem pcKeepsItsParity : Obligations.PcKeepsItsParity := by
  intro s t h
  obtain ⟨-, -, -, n, -, -, hpc⟩ := step_next_frame h
  rw [hpc, BitVec.toNat_add, BitVec.toNat_ofNat]
  omega

/-- Settles O48: the instruction lies within memory, so its end is no address past 2^32 and the advance does not
wrap. -/
theorem eachStepRaisesPc : Obligations.EachStepRaisesPc := by
  intro s t hsize h
  obtain ⟨i, hdec, hexec⟩ := step_next h
  have hend := decode_fetchWindow_end hdec
  obtain ⟨hlow, hhigh⟩ := lengthWords_bounds i
  have hpc : t.pc.toNat = s.pc.toNat + 2 * i.lengthWords := by
    rw [exec_next_pc hexec, BitVec.toNat_add, BitVec.toNat_ofNat]
    omega
  omega

/-- A step answers a next state or stops (R231); it never refuses. -/
theorem step_next_or_stopped (s : State) : (∃ t, step s = .next t) ∨ Stopped s := by
  rcases stepIsAllOrNothing s with ⟨t, -, ht, -⟩ | ⟨f, hf, -⟩
  · exact .inl ⟨t, ht⟩
  · exact .inr ⟨f, hf⟩

/-- With at most `2 * n + 1` bytes from `pc` to the end of memory a run ends within `n` steps. -/
theorem exists_stopped_within (n : Nat) (s : State) (hsize : s.mem.size < 2 ^ 32)
    (hroom : s.mem.size ≤ s.pc.toNat + 2 * n + 1) : ∃ k ≤ n, ∃ t, stepsTo k s = some t ∧ Stopped t := by
  induction n generalizing s with
  | zero =>
    rcases step_next_or_stopped s with ⟨t, ht⟩ | hstop
    · have hraise := eachStepRaisesPc s t hsize ht
      omega
    · exact ⟨0, le_rfl, s, rfl, hstop⟩
  | succ n ih =>
    rcases step_next_or_stopped s with ⟨u, hu⟩ | hstop
    · have hraise := eachStepRaisesPc s u hsize hu
      have hmem := step_next_mem hu
      obtain ⟨k, hk, t, hrun, hstop⟩ := ih u (by rwa [hmem]) (by rw [hmem]; omega)
      exact ⟨k + 1, by omega, t, stepsTo_succ.mpr ⟨u, hu, hrun⟩, hstop⟩
    · exact ⟨0, Nat.zero_le _, s, rfl, hstop⟩

/-- Settles O51: each step leaves two bytes fewer to run, and memory has `MEM_SIZE` of them at most. -/
theorem everyRunEndsWithinHalfTheMemory : Obligations.EveryRunEndsWithinHalfTheMemory :=
  fun s hsize => exists_stopped_within (s.mem.size / 2) s hsize (by omega)

end Sys2Proof.Machine
end

section
/-! The round trip from bytes (42_decoder_dispatch.md section 6): what the decoder accepts begins with the encoding of
the answer, but for the ignored high byte of a byte immediate, and that byte and the bytes behind have no influence. -/

namespace Sys2Proof

/-! ### The parts of the two instruction forms -/

section Parts
variable (w : Width) (src dst : Operand w) (dn : Fin 8) (value : Value w)
@[simp] theorem width_cmp : (Instr.cmp w src dn).width = w := by cases w <;> rfl
@[simp] theorem width_cmpi : (Instr.cmpi w value dst).width = w := by cases w <;> rfl
@[simp] theorem family_cmp : (Instr.cmp w src dn).family = .cmp := by cases w <;> rfl
@[simp] theorem family_cmpi : (Instr.cmpi w value dst).family = .cmpi := by cases w <;> rfl
@[simp] theorem src_mode_cmp : (Instr.cmp w src dn).src.mode = src.mode := by cases w <;> rfl
@[simp] theorem src_mode_cmpi : (Instr.cmpi w value dst).src.mode = .immediate := by cases w <;> rfl
end Parts

/-- The instructions with an ignored byte: a byte immediate fills half of its word (R74, D8). -/
abbrev Instr.byteImmediate (i : Instr) : Prop := i.width = .byte ∧ i.src.mode = .immediate

theorem byteImmediate_cmp {w : Width} {src : Operand w} {dn : Fin 8} :
    (Instr.cmp w src dn).byteImmediate ↔ w = .byte ∧ src.mode = .immediate := by
  rw [Instr.byteImmediate, src_mode_cmp, width_cmp]

theorem byteImmediate_cmpi {w : Width} {value : Value w} {dst : Operand w} :
    (Instr.cmpi w value dst).byteImmediate ↔ w = .byte := by
  rw [Instr.byteImmediate, src_mode_cmpi, width_cmpi, eq_self, and_true]

/-- A word of an encoding and the word it was read from: equal, or, where the high byte is ignored, that byte is 0 in
the encoding and any byte in the other. -/
abbrev ReadFrom (ignored : Prop) (x y : Word) : Prop :=
  x = y ∨ (ignored ∧ x = 0#8 ++ y.extractLsb' 0 8)

theorem ReadFrom.imp {p q : Prop} {x y : Word} (hpq : p → q) (h : ReadFrom p x y) : ReadFrom q x y :=
  Or.imp id (And.imp hpq id) h

/-- The low byte of the two words is the same in either case. -/
theorem ReadFrom.low {p : Prop} {x y : Word} (h : ReadFrom p x y) : x.extractLsb' 0 8 = y.extractLsb' 0 8 := by
  rcases h with rfl | ⟨-, rfl⟩
  · rfl
  · exact append_low _ _

/-- Word `k` of the encoding of `i` was read from word `k` of some bytes; the word of an immediate is the second. -/
abbrev Instr.agreesAt (i : Instr) (b : List Byte) (k : Nat) : Prop :=
  ReadFrom (k = 1 ∧ i.byteImmediate) (wordAt (encode i) k) (wordAt b k)

/-! ### Bytes and words -/

theorem getD_even (b : List Byte) (k : Nat) : b.getD (2 * k) 0#8 = (wordAt b k).extractLsb' 8 8 :=
  (append_high _ _).symm

theorem getD_odd (b : List Byte) (k : Nat) : b.getD (2 * k + 1) 0#8 = (wordAt b k).extractLsb' 0 8 :=
  (append_low _ _).symm

theorem getElem?_eq_some_getD {b : List Byte} {k : Nat} (hk : k < b.length) : b[k]? = some (b.getD k 0#8) := by
  rw [List.getD_eq_getElem _ _ hk, List.getElem?_eq_getElem hk]

/-! ### Encoding what was decoded, word by word -/

/-- The register field of an operand read from codes is the code it was read from. -/
theorem regField_operandOf {t : AddrMode} {r : BitVec 3} (w : Width) (b : List Byte) (j : Nat)
    (h : (regCode t).getD r = r) : regField (operandOf t r w b j) = r := by
  rw [regField, mode_operandOf]
  cases t with
  | dataRegisterDirect => exact BitVec.ofNat_toNat 3 r
  | addressRegisterDirect => exact BitVec.ofNat_toNat 3 r
  | addressRegisterIndirect => exact BitVec.ofNat_toNat 3 r
  | postincrement => exact BitVec.ofNat_toNat 3 r
  | predecrement => exact BitVec.ofNat_toNat 3 r
  | indirectWithDisplacement => exact BitVec.ofNat_toNat 3 r
  | absoluteShort => exact h
  | absoluteLong => exact h
  | programCounterDisplacement => exact h
  | immediate => exact h

/-- The words of an immediate read from bytes. -/
theorem immediateWords_immediateAt (w : Width) (b : List Byte) (j k : Nat)
    (hk : k < (immediateWords w (immediateAt b j w)).length) :
    ReadFrom (k = 0 ∧ w = .byte) (immediateWords w (immediateAt b j w))[k] (wordAt b (j + k)) := by
  rw [length_immediateWords] at hk
  cases w with
  | byte =>
    obtain rfl : k = 0 := Nat.lt_one_iff.mp hk
    exact .inr ⟨⟨rfl, rfl⟩, rfl⟩
  | word =>
    obtain rfl : k = 0 := Nat.lt_one_iff.mp hk
    exact .inl rfl
  | long =>
    obtain rfl | rfl : k = 0 ∨ k = 1 := by simp only [AddrMode.ext] at hk; omega
    · exact .inl (long_append_high _ _)
    · exact .inl (long_append_low _ _)

/-- The extension words of an operand read from bytes. -/
theorem extWords_operandOf (t : AddrMode) (r : BitVec 3) (w : Width) (b : List Byte) (j k : Nat)
    (hk : k < (extWords (operandOf t r w b j)).length) :
    ReadFrom (k = 0 ∧ w = .byte ∧ t = .immediate) (extWords (operandOf t r w b j))[k] (wordAt b (j + k)) := by
  have hext : k < t.ext w := by rwa [length_extWords, mode_operandOf] at hk
  cases t with
  | dataRegisterDirect => exact absurd hext (Nat.not_lt_zero k)
  | addressRegisterDirect => exact absurd hext (Nat.not_lt_zero k)
  | addressRegisterIndirect => exact absurd hext (Nat.not_lt_zero k)
  | postincrement => exact absurd hext (Nat.not_lt_zero k)
  | predecrement => exact absurd hext (Nat.not_lt_zero k)
  | indirectWithDisplacement =>
    obtain rfl : k = 0 := Nat.lt_one_iff.mp hext
    exact .inl rfl
  | absoluteShort =>
    obtain rfl : k = 0 := Nat.lt_one_iff.mp hext
    exact .inl rfl
  | absoluteLong =>
    obtain rfl | rfl : k = 0 ∨ k = 1 := by simp only [AddrMode.ext] at hext; omega
    · exact .inl (long_append_high _ _)
    · exact .inl (long_append_low _ _)
  | programCounterDisplacement =>
    obtain rfl : k = 0 := Nat.lt_one_iff.mp hext
    exact .inl rfl
  | immediate => exact (immediateWords_immediateAt w b j k hk).imp fun ⟨h0, hw⟩ => ⟨h0, hw, rfl⟩

/-- The opcode word of a decoded `CMP` is the word its fields were read from. -/
theorem cmpOpcode_of_fields {x : Word} {w : Width} {src : Operand w} (htag : x.extractLsb' 12 4 = tagCmp)
    (hw : opmodeWidth (x.extractLsb' 6 3) = some w) (hmode : modeCode src.mode = x.extractLsb' 3 3)
    (hreg : regField src = x.extractLsb' 0 3) : cmpOpcode src (x.extractLsb' 9 3).toFin = x := by
  have hdn : BitVec.ofNat 3 (x.extractLsb' 9 3).toFin.val = x.extractLsb' 9 3 := BitVec.ofNat_toNat 3 _
  rw [cmpOpcode, ← htag, hdn, opmodeCode_of_opmodeWidth hw, hmode, hreg]
  exact cmpFields_join x

/-- The opcode word of a decoded `CMPI` is the word its fields were read from. -/
theorem cmpiOpcode_of_fields {x : Word} {w : Width} {dst : Operand w} (htag : x.extractLsb' 8 8 = tagCmpi)
    (hw : sizeWidth (x.extractLsb' 6 2) = some w) (hmode : modeCode dst.mode = x.extractLsb' 3 3)
    (hreg : regField dst = x.extractLsb' 0 3) : cmpiOpcode dst = x := by
  rw [cmpiOpcode, ← htag, sizeCode_of_sizeWidth hw, hmode, hreg]
  exact cmpiFields_join x

/-- Where word `k` of a `CMPI` instruction stands: it is the opcode word, of the immediate, or of the destination. -/
theorem cmpi_word_cases {k m n : Nat} (h : k < 1 + m + n) :
    k = 0 ∨ (∃ j < m, k = 1 + j) ∨ ∃ j < n, k = 1 + m + j := by
  rcases Nat.lt_or_ge k (1 + m) with hlt | hge
  · rcases k.eq_zero_or_pos with h0 | hpos
    · exact .inl h0
    · exact .inr (.inl ⟨k - 1, by omega, by omega⟩)
  · exact .inr (.inr ⟨k - (1 + m), by omega, by omega⟩)

theorem agreesAt_of_decodeCmp {b : List Byte} {i : Instr} (h : decodeCmp b = .ok i) {k : Nat}
    (hk : k < i.lengthWords) : i.agreesAt b k := by
  obtain ⟨w, t, htag, hw, ht, -, rfl⟩ := decodeCmp_ok h
  obtain ⟨hmode, hreg⟩ := codes_of_eaMode ht
  rw [lengthWords_cmp] at hk
  rw [Instr.agreesAt, ← List.append_nil (encode _)]
  cases k with
  | zero =>
    refine .inl ((wordAt_encode_cmp_zero _ _ _).trans (cmpOpcode_of_fields htag hw ?_ ?_))
    · rw [mode_operandOf, hmode]
    · exact regField_operandOf w b 1 hreg
  | succ k =>
    have hext : k < (extWords (operandOf t ((wordAt b 0).extractLsb' 0 3) w b 1)).length := by
      rw [length_extWords]
      omega
    rw [Nat.add_comm k 1, wordAt_encode_cmp_src _ _ _ _ hext]
    refine (extWords_operandOf t _ w b 1 k hext).imp ?_
    rintro ⟨rfl, rfl, rfl⟩
    exact ⟨rfl, rfl, rfl⟩

theorem agreesAt_of_decodeCmpi {b : List Byte} {i : Instr} (h : decodeCmpi b = .ok i) {k : Nat}
    (hk : k < i.lengthWords) : i.agreesAt b k := by
  obtain ⟨w, t, htag, hw, ht, hdst, -, rfl⟩ := decodeCmpi_ok h
  obtain ⟨hmode, hreg⟩ := codes_of_eaMode ht
  rw [lengthWords_cmpi, ← length_extWords] at hk
  rw [Instr.agreesAt, ← List.append_nil (encode _)]
  rcases cmpi_word_cases hk with rfl | ⟨j, hval, rfl⟩ | ⟨j, hext, rfl⟩
  · refine .inl ((wordAt_encode_cmpi_zero _ _ _).trans (cmpiOpcode_of_fields htag hw ?_ ?_))
    · rw [mode_operandOf, hmode]
    · exact regField_operandOf w b _ hreg
  · rw [← length_immediateWords (immediateAt b 1 w)] at hval
    rw [wordAt_encode_cmpi_value _ _ _ _ hval]
    refine (immediateWords_immediateAt w b 1 j hval).imp ?_
    rintro ⟨rfl, rfl⟩
    exact ⟨rfl, rfl, rfl⟩
  · rw [wordAt_encode_cmpi_dst _ _ _ _ hext]
    refine (extWords_operandOf t _ w b _ j hext).imp ?_
    rintro ⟨-, -, rfl⟩
    exact absurd hdst nofun

/-- The words of the encoding of what was decoded are the words decoded, but for that of a byte immediate. -/
theorem agreesAt_of_decode {b : List Byte} {i : Instr} (h : decode b = .ok i) {k : Nat}
    (hk : k < i.lengthWords) : i.agreesAt b k := by
  rcases decode_ok h with h | ⟨-, h⟩
  · exact agreesAt_of_decodeCmpi h hk
  · exact agreesAt_of_decodeCmp h hk

/-- The bytes of the encoding of what was decoded are the bytes decoded, but for byte 2, which is 0, in front of a byte
immediate. -/
theorem getD_encode_of_decode {b : List Byte} {i : Instr} (h : decode b = .ok i) {k : Nat}
    (hk : k < 2 * i.lengthWords) :
    (encode i).getD k 0#8 = b.getD k 0#8 ∨
    (k = 2 ∧ i.byteImmediate ∧ (encode i).getD k 0#8 = 0#8) := by
  obtain ⟨j, rfl | rfl⟩ := k.even_or_odd'
  · rw [getD_even, getD_even]
    rcases agreesAt_of_decode h (k := j) (by omega) with hw | ⟨⟨rfl, hi⟩, hw⟩
    · exact .inl (by rw [hw])
    · exact .inr ⟨rfl, hi, by rw [hw, append_high]⟩
  · rw [getD_odd, getD_odd]
    exact .inl (agreesAt_of_decode h (by omega)).low

/-- Settles O33: the opcode word and every extension word are read back, a byte immediate from its low byte alone. -/
theorem encodeOfDecodeIsTheBytes : Obligations.EncodeOfDecodeIsTheBytes := by
  intro b i h
  have hlen := decode_ok_length h
  refine ⟨length_encode i, hlen, fun k hk => ?_⟩
  rw [getElem?_eq_some_getD (length_encode i ▸ hk), getElem?_eq_some_getD (hk.trans_le hlen)]
  rcases getD_encode_of_decode h hk with he | ⟨h2, ⟨hw, hm⟩, he⟩
  · exact .inl (congrArg some he)
  · exact .inr ⟨h2, hw, hm, congrArg some he⟩

end Sys2Proof
end

section
/-! What the decoder accepts, exactly (42_decoder_dispatch.md section 6): bytes whose words are those of the encoding of
a well-formed instruction, but for the ignored byte. So neither that byte nor the bytes behind matter. -/

namespace Sys2Proof

/-! ### Decoding words that agree with an encoding -/

/-- An immediate is read back from words it could have been read from. -/
theorem immediateAt_of_readFrom {w : Width} (value : Value w) (b : List Byte) (j : Nat)
    (h : ∀ k (hk : k < (immediateWords w value).length),
      ReadFrom (w = .byte) (immediateWords w value)[k] (wordAt b (j + k))) : immediateAt b j w = value := by
  by_cases hw : w = .byte
  · subst hw
    exact (h 0 Nat.zero_lt_one).low.symm.trans (append_low 0#8 value)
  · exact immediateAt_of_words value b j fun k hk => ((h k hk).resolve_right fun e => hw e.1).symm

/-- An operand is read back from words it could have been read from. -/
theorem operandOf_of_readFrom {w : Width} (op : Operand w) (b : List Byte) (j : Nat)
    (h : ∀ k (hk : k < (extWords op).length),
      ReadFrom (w = .byte ∧ op.mode = .immediate) (extWords op)[k] (wordAt b (j + k))) :
    operandOf op.mode (regField op) w b j = op := by
  by_cases hmode : op.mode = .immediate
  · cases op with
    | immediate value =>
      exact congrArg Operand.immediate
        (immediateAt_of_readFrom value b j fun k hk => (h k hk).imp And.left)
    | _ => exact absurd hmode nofun
  · exact operandOf_of_words op b j fun k hk => ((h k hk).resolve_right fun e => hmode e.1.2).symm

/-- Words that agree with the encoding of a well-formed instruction decode to it. -/
theorem decode_of_agreesAt {b : List Byte} {i : Instr} (hwf : i.wf = true) (hlen : 2 * i.lengthWords ≤ b.length)
    (h : ∀ k < i.lengthWords, i.agreesAt b k) : decode b = .ok i := by
  have hop : wordAt (encode i) 0 = wordAt b 0 :=
    (h 0 (Machine.lengthWords_bounds i).1).resolve_right fun e => absurd e.1.1 Nat.zero_ne_one
  simp only [Instr.agreesAt] at h
  rw [← List.append_nil (encode _)] at hop h
  rcases instr_cases i with ⟨w, src, dn, rfl⟩ | ⟨w, value, dst, rfl⟩
  · rw [wordAt_encode_cmp_zero] at hop
    rw [lengthWords_cmp] at hlen h
    have hsrc : operandOf src.mode (regField src) w b 1 = src :=
      operandOf_of_readFrom src b 1 fun k hk => by
        rw [← wordAt_encode_cmp_src src dn [] k hk]
        rw [length_extWords] at hk
        exact (h (1 + k) (by omega)).imp fun e => byteImmediate_cmp.mp e.2
    rw [decode_cmpOpcode src dn (by omega) hop.symm, if_neg (by omega), hsrc]
  · rw [wordAt_encode_cmpi_zero] at hop
    rw [lengthWords_cmpi] at hlen h
    have himm := one_le_ext_immediate w
    have hvalue : immediateAt b 1 w = value := immediateAt_of_readFrom value b 1 fun k hk => by
      rw [← wordAt_encode_cmpi_value value dst [] k hk]
      rw [length_immediateWords] at hk
      exact (h (1 + k) (by omega)).imp fun e => byteImmediate_cmpi.mp e.2
    have hdst : operandOf dst.mode (regField dst) w b (1 + AddrMode.immediate.ext w) = dst :=
      operandOf_of_readFrom dst b _ fun k hk => by
        rw [← wordAt_encode_cmpi_dst value dst [] k hk]
        rw [length_extWords] at hk
        exact (h _ (by omega)).imp fun e => absurd e.1 (by omega)
    rw [decode_cmpiOpcode dst (wf_cmpi w value dst ▸ hwf) (by omega) hop.symm, if_neg (by omega), hvalue, hdst]

/-- Whatever decodes is well formed: the decoder checks the one condition the types leave open (R77). -/
theorem wf_of_decode {b : List Byte} {i : Instr} (h : decode b = .ok i) : i.wf = true := by
  rcases decode_ok h with h | ⟨-, h⟩
  · obtain ⟨w, t, -, -, -, hdst, -, rfl⟩ := decodeCmpi_ok h
    rw [wf_cmpi, mode_operandOf]
    exact hdst
  · obtain ⟨w, t, -, -, -, -, rfl⟩ := decodeCmp_ok h
    exact wf_cmp w _ _

/-- What the decoder accepts, exactly: enough bytes whose words agree with the encoding of a well-formed
instruction. -/
theorem decode_eq_ok_iff {b : List Byte} {i : Instr} :
    decode b = .ok i ↔ i.wf = true ∧ 2 * i.lengthWords ≤ b.length ∧ ∀ k < i.lengthWords, i.agreesAt b k :=
  ⟨fun h => ⟨wf_of_decode h, decode_ok_length h, fun _ => agreesAt_of_decode h⟩,
    fun ⟨hwf, hlen, h⟩ => decode_of_agreesAt hwf hlen h⟩

/-! ### What does not matter to the decoder -/

/-- The first words of a list are those of its first bytes, whatever bytes follow. -/
theorem wordAt_take_append {b : List Byte} (rest : List Byte) {k n : Nat} (hk : k < n) (hn : 2 * n ≤ b.length) :
    wordAt (b.take (2 * n) ++ rest) k = wordAt b k := by
  have hlen : 2 * k + 1 < (b.take (2 * n)).length := by rw [List.length_take]; omega
  calc wordAt (b.take (2 * n) ++ rest) k
      = wordAt (b.take (2 * n) ++ b.drop (2 * n)) k := by rw [wordAt_append _ _ _ hlen, wordAt_append _ _ _ hlen]
    _ = wordAt b k := by rw [List.take_append_drop]

/-- Settles O34: what is decoded is decided by the words of the instruction. -/
theorem decodeReadsNoByteBeyond : Obligations.DecodeReadsNoByteBeyond := by
  intro b rest i h
  obtain ⟨hwf, hlen, hwords⟩ := decode_eq_ok_iff.mp h
  refine decode_eq_ok_iff.mpr ⟨hwf, ?_, fun k hk => ?_⟩
  · rw [List.length_append, List.length_take]
    omega
  · rw [Instr.agreesAt, wordAt_take_append rest hk hlen]
    exact hwords k hk

/-- The second word of an encoding with a byte immediate has that byte below a byte 0 (R74). -/
theorem wordAt_encode_one_of_byteImmediate {i : Instr} (hi : i.byteImmediate) :
    ∃ v : Byte, wordAt (encode i) 1 = 0#8 ++ v := by
  rw [← List.append_nil (encode i)]
  rcases instr_cases i with ⟨w, src, dn, rfl⟩ | ⟨w, value, dst, rfl⟩
  · obtain ⟨rfl, hmode⟩ := byteImmediate_cmp.mp hi
    cases src with
    | immediate value =>
      exact ⟨value, wordAt_encode_cmp_src (.immediate value : Operand .byte) dn [] 0 Nat.zero_lt_one⟩
    | _ => exact absurd hmode nofun
  · obtain rfl := byteImmediate_cmpi.mp hi
    exact ⟨value, wordAt_encode_cmpi_value value dst [] 0 Nat.zero_lt_one⟩

/-- The second word has the third byte above the fourth. -/
theorem wordAt_one (b₀ b₁ h : Byte) (rest : List Byte) :
    wordAt (b₀ :: b₁ :: h :: rest) 1 = h ++ rest.getD 0 0#8 := rfl

/-- The third byte is in the second word only. -/
theorem wordAt_third_byte (b₀ b₁ h h' : Byte) (rest : List Byte) {k : Nat} (hk : k ≠ 1) :
    wordAt (b₀ :: b₁ :: h' :: rest) k = wordAt (b₀ :: b₁ :: h :: rest) k := by
  match k with
  | 0 => rfl
  | 1 => exact absurd rfl hk
  | k + 2 => simp [wordAt, Nat.mul_add]

/-- Settles O37: the third byte is in the immediate's word only, where it is the ignored one. -/
theorem byteImmediateHighByteIsIgnored : Obligations.ByteImmediateHighByteIsIgnored := by
  intro b₀ b₁ h h' rest i hdec hw hmode
  obtain ⟨hwf, hlen, hwords⟩ := decode_eq_ok_iff.mp hdec
  refine decode_eq_ok_iff.mpr ⟨hwf, hlen, fun k hk => ?_⟩
  by_cases hk1 : k = 1
  · subst hk1
    obtain ⟨v, hv⟩ := wordAt_encode_one_of_byteImmediate ⟨hw, hmode⟩
    have hlow : v = rest.getD 0 0#8 := by
      simpa only [hv, wordAt_one, append_low] using (hwords 1 hk).low
    exact .inr ⟨⟨rfl, hw, hmode⟩, by rw [hv, wordAt_one, append_low, hlow]⟩
  · rw [Instr.agreesAt, wordAt_third_byte b₀ b₁ h h' rest hk1]
    exact hwords k hk

/-- The two tags cannot both match (R79). -/
theorem decodeCmp_noMatch {b : List Byte} (hlen : 2 ≤ b.length)
    (h : (wordAt b 0).extractLsb' 8 8 = tagCmpi) : decodeCmp b = .error .noMatch := by
  rw [decodeCmp, if_neg (Nat.not_lt.mpr hlen), if_pos]
  rw [← extract_tag4_of_tag8, h]
  exact tags_differ

/-- Settles O36: of two bytes or more one probe at least answers `NoMatch`, and of fewer both answer `Malformed`. -/
theorem probeOrderHasNoEffect : Obligations.ProbeOrderHasNoEffect := by
  intro b
  rcases Nat.lt_or_ge b.length 2 with hlt | hge
  · have hcmp : decodeCmp b = .error .malformed := if_pos hlt
    rw [decode_malformed_of_decodeCmpi (decodeCmpi_malformed_of_lt_two hlt), hcmp]
  · by_cases htag : (wordAt b 0).extractLsb' 8 8 = tagCmpi
    · rw [decode, decodeCmp_noMatch hge htag]
      cases decodeCmpi b with
      | ok i => rfl
      | error r => cases r <;> rfl
    · rw [decode, decodeCmpi_noMatch hge htag]
      cases decodeCmp b with
      | ok i => rfl
      | error r => cases r <;> rfl

end Sys2Proof
end

section
/-! The opcode word as a number (30_encoding.md): where the encoder puts each field, and which outcome the fields give,
in the order of the decoder's checks. -/

namespace Sys2Proof

/-! ### Fields as numbers -/

theorem toNat_append_eq_add {m n : Nat} (x : BitVec m) (y : BitVec n) :
    (x ++ y).toNat = x.toNat * 2 ^ n + y.toNat := by
  rw [BitVec.toNat_append, ← Nat.shiftLeft_add_eq_or_of_lt y.isLt, Nat.shiftLeft_eq]

/-- A field of a word is its quotient by the field's place, modulo the field's range. -/
theorem toNat_field (x : Word) (start len : Nat) :
    (x.extractLsb' start len).toNat = x.toNat / 2 ^ start % 2 ^ len := by
  rw [BitVec.extractLsb'_toNat, Nat.shiftRight_eq_div_pow]

section Fields
variable (x : Word)

theorem toNat_mode : (x.extractLsb' 3 3).toNat = x.toNat / 8 % 8 := toNat_field x 3 3

theorem toNat_reg : (x.extractLsb' 0 3).toNat = x.toNat % 8 :=
  (toNat_field x 0 3).trans (congrArg (· % 8) (Nat.div_one _))

theorem toNat_opmode : (x.extractLsb' 6 3).toNat = x.toNat / 64 % 8 := toNat_field x 6 3

theorem toNat_size : (x.extractLsb' 6 2).toNat = x.toNat / 64 % 4 := toNat_field x 6 2

theorem tag_cmp_iff : x.extractLsb' 12 4 = tagCmp ↔ x.toNat / 4096 = 0xB := by
  have hrange := x.isLt
  rw [← BitVec.toNat_inj, toNat_field, tagCmp, BitVec.toNat_ofNat]
  omega

theorem tag_cmpi_iff : x.extractLsb' 8 8 = tagCmpi ↔ x.toNat / 256 = 0x0C := by
  have hrange := x.isLt
  rw [← BitVec.toNat_inj, toNat_field, tagCmpi, BitVec.toNat_ofNat]
  omega

end Fields

theorem toNat_wordAt_zero (b : List Byte) :
    (wordAt b 0).toNat = (b.getD 0 0#8).toNat * 256 + (b.getD 1 0#8).toNat :=
  toNat_append_eq_add _ _

/-! ### The opcode words -/

theorem toNat_cmpOpcode {w : Width} (src : Operand w) (dn : Fin 8) :
    (cmpOpcode src dn).toNat = 0xB000 + dn.val * 512 + (opmodeCode w).toNat * 64 +
      ((modeCode src.mode).toNat * 8 + (regField src).toNat) := by
  have hdn : dn.val % 8 = dn.val := Nat.mod_eq_of_lt dn.isLt
  simp only [cmpOpcode, toNat_append_eq_add, BitVec.toNat_ofNat, tagCmp]
  omega

theorem toNat_cmpiOpcode {w : Width} (dst : Operand w) :
    (cmpiOpcode dst).toNat = 0x0C00 + (sizeCode w).toNat * 64 +
      ((modeCode dst.mode).toNat * 8 + (regField dst).toNat) := by
  simp only [cmpiOpcode, toNat_append_eq_add, BitVec.toNat_ofNat, tagCmpi]
  omega

/-- The register field of a mode that has a register holds its index (R70). -/
theorem toNat_regField_of_register {w : Width} {op : Operand w} {n : Fin 8} (hcode : regCode op.mode = none)
    (hreg : op.register? = some n) : (regField op).toNat = n.val := by
  rw [regField, hcode, hreg]
  exact Nat.mod_eq_of_lt n.isLt

/-- Settles O31: the first word of the encoding is the opcode word, and the addressing code is the mode's code above the
register's. -/
theorem encodeLaysOutTheOpcodeFields : Obligations.EncodeLaysOutTheOpcodeFields := by
  intro w op size ea hsize hea
  have hopmode : (opmodeCode w).toNat = size := by cases w <;> exact hsize.symm
  have hsizeCode : (sizeCode w).toNat = size := by cases w <;> exact hsize.symm
  have hcode : (modeCode op.mode).toNat * 8 + (regField op).toNat = ea := by
    rw [hea]
    cases op with
    | dataRegisterDirect n => rw [toNat_regField_of_register rfl rfl]; exact Nat.zero_add _
    | addressRegisterDirect n => rw [toNat_regField_of_register rfl rfl]; rfl
    | addressRegisterIndirect n => rw [toNat_regField_of_register rfl rfl]; rfl
    | postincrement n => rw [toNat_regField_of_register rfl rfl]; rfl
    | predecrement n => rw [toNat_regField_of_register rfl rfl]; rfl
    | indirectWithDisplacement n disp => rw [toNat_regField_of_register rfl rfl]; rfl
    | absoluteShort addr16 => rfl
    | absoluteLong addr32 => rfl
    | programCounterDisplacement disp => rfl
    | immediate value => rfl
  refine ⟨fun dn => ?_, fun value => ?_⟩
  · rw [← List.append_nil (encode _), wordAt_encode_cmp_zero, toNat_cmpOpcode, hopmode, hcode]
  · rw [← List.append_nil (encode _), wordAt_encode_cmpi_zero, toNat_cmpiOpcode, hsizeCode, hcode]

/-! ### What the fields say -/

theorem opmodeWidth_isSome : ∀ f : BitVec 3, (opmodeWidth f).isSome ↔ f.toNat ≤ 2 := by decide

theorem sizeWidth_isSome : ∀ f : BitVec 2, (sizeWidth f).isSome ↔ f.toNat ≤ 2 := by decide

theorem eaMode_isSome : ∀ m r : BitVec 3,
    (eaMode m r).isSome ↔ m.toNat ≤ 5 ∨ (m.toNat = 7 ∧ (r.toNat ≤ 2 ∨ r.toNat = 4)) := by decide

/-- The addressing codes of the destinations `CMPI` takes. -/
theorem eaMode_any_cmpiDestination : ∀ m r : BitVec 3,
    (eaMode m r).any AddrMode.cmpiDestination ↔
      m.toNat ≠ 1 ∧ (m.toNat ≤ 5 ∨ (m.toNat = 7 ∧ r.toNat ≤ 2)) := by decide

/-- The extension words of the mode an addressing code selects (R71). -/
theorem ext_of_eaMode {m r : BitVec 3} {t : AddrMode} (h : eaMode m r = some t) (w : Width) :
    t.ext w = if m.toNat = 7 ∧ r.toNat = 4 ∧ w = .long then 2
      else if m.toNat ≤ 4 then 0 else if m.toNat = 7 ∧ r.toNat = 1 then 2 else 1 := by
  obtain ⟨rfl, hr⟩ := codes_of_eaMode h
  cases t with
  | dataRegisterDirect => rfl
  | addressRegisterDirect => rfl
  | addressRegisterIndirect => rfl
  | postincrement => rfl
  | predecrement => rfl
  | indirectWithDisplacement => rfl
  | absoluteShort => obtain rfl : 0#3 = r := hr; rfl
  | absoluteLong => obtain rfl : 1#3 = r := hr; rfl
  | programCounterDisplacement => obtain rfl : 2#3 = r := hr; rfl
  | immediate => obtain rfl : 4#3 = r := hr; cases w <;> rfl

theorem opmodeWidth_long {f : BitVec 3} {w : Width} (h : opmodeWidth f = some w) : w = .long ↔ f.toNat = 2 := by
  rw [← opmodeCode_of_opmodeWidth h]
  cases w <;> decide

theorem sizeWidth_long {f : BitVec 2} {w : Width} (h : sizeWidth f = some w) : w = .long ↔ f.toNat = 2 := by
  rw [← sizeCode_of_sizeWidth h]
  cases w <;> decide

theorem ext_immediate (w : Width) : AddrMode.immediate.ext w = if w = .long then 2 else 1 := by
  cases w <;> rfl

/-! ### The outcome of each check -/

section Outcomes
variable {b : List Byte}

/-- A word with the `CMPI` tag is `CMPI`'s, whatever it answers (R174, R175). -/
theorem decode_of_cmpi_tag (hlen : 2 ≤ b.length) (htag : (wordAt b 0).extractLsb' 8 8 = tagCmpi) :
    decode b = decodeCmpi b := by
  have hcmp := decodeCmp_noMatch hlen htag
  rw [decode]
  cases h : decodeCmpi b with
  | ok i => rfl
  | error r =>
    cases r with
    | illegalOperand => rfl
    | malformed => rfl
    | noMatch => exact hcmp

theorem decode_noMatch (hlen : 2 ≤ b.length) (hcmp : (wordAt b 0).extractLsb' 12 4 ≠ tagCmp)
    (hcmpi : (wordAt b 0).extractLsb' 8 8 ≠ tagCmpi) : decode b = .error .noMatch := by
  rw [decode, decodeCmpi_noMatch hlen hcmpi, decodeCmp]
  simp only [if_neg (Nat.not_lt.mpr hlen), if_pos hcmp]

/-- A `CMP` word with a size code or an addressing code that selects nothing (R77, R171). -/
theorem decode_cmp_illegalOperand (hlen : 2 ≤ b.length) (htag : (wordAt b 0).extractLsb' 12 4 = tagCmp)
    (h : ¬ ((opmodeWidth ((wordAt b 0).extractLsb' 6 3)).isSome ∧
      (eaMode ((wordAt b 0).extractLsb' 3 3) ((wordAt b 0).extractLsb' 0 3)).isSome)) :
    decode b = .error .illegalOperand := by
  rw [decode_of_cmp_tag hlen htag, decodeCmp, if_neg (Nat.not_lt.mpr hlen), if_neg (not_not_intro htag)]
  cases hw : opmodeWidth ((wordAt b 0).extractLsb' 6 3) with
  | none => rfl
  | some w =>
    cases ht : eaMode ((wordAt b 0).extractLsb' 3 3) ((wordAt b 0).extractLsb' 0 3) with
    | none => rfl
    | some t => exact absurd ⟨by rw [hw]; rfl, by rw [ht]; rfl⟩ h

/-- A `CMP` word whose fields select a width and a mode: the length decides (R172). -/
theorem decode_cmp_length (hlen : 2 ≤ b.length) (htag : (wordAt b 0).extractLsb' 12 4 = tagCmp)
    {w : Width} (hw : opmodeWidth ((wordAt b 0).extractLsb' 6 3) = some w) {t : AddrMode}
    (ht : eaMode ((wordAt b 0).extractLsb' 3 3) ((wordAt b 0).extractLsb' 0 3) = some t) :
    (b.length < 2 * (1 + t.ext w) → decode b = .error .malformed) ∧
    (2 * (1 + t.ext w) ≤ b.length → ∃ i, decode b = .ok i ∧ i.family = .cmp ∧ i.lengthWords = 1 + t.ext w) := by
  rw [decode_of_cmp_tag hlen htag, decodeCmp, if_neg (Nat.not_lt.mpr hlen), if_neg (not_not_intro htag), hw]
  simp only [ht]
  refine ⟨fun hlt => if_pos (by omega), fun hge => ⟨_, if_neg (by omega), family_cmp .., ?_⟩⟩
  rw [lengthWords_cmp, mode_operandOf]

/-- A `CMPI` word with a size code or an addressing code that selects nothing, or a destination that `CMPI` does not
take (R77, R173). -/
theorem decode_cmpi_illegalOperand (hlen : 4 ≤ b.length) (htag : (wordAt b 0).extractLsb' 8 8 = tagCmpi)
    (h : ¬ ((sizeWidth ((wordAt b 0).extractLsb' 6 2)).isSome ∧
      (eaMode ((wordAt b 0).extractLsb' 3 3) ((wordAt b 0).extractLsb' 0 3)).any AddrMode.cmpiDestination)) :
    decode b = .error .illegalOperand := by
  rw [decode_of_cmpi_tag (by omega) htag, decodeCmpi, if_neg (by omega), if_neg (not_not_intro htag),
    if_neg (Nat.not_lt.mpr hlen)]
  cases hw : sizeWidth ((wordAt b 0).extractLsb' 6 2) with
  | none => rfl
  | some w =>
    cases ht : eaMode ((wordAt b 0).extractLsb' 3 3) ((wordAt b 0).extractLsb' 0 3) with
    | none => rfl
    | some t =>
      rw [hw, ht] at h
      exact if_pos (by simpa using h)

/-- A `CMPI` word whose fields select a width and a destination: the length decides (R172). -/
theorem decode_cmpi_length (hlen : 4 ≤ b.length) (htag : (wordAt b 0).extractLsb' 8 8 = tagCmpi)
    {w : Width} (hw : sizeWidth ((wordAt b 0).extractLsb' 6 2) = some w) {t : AddrMode}
    (ht : eaMode ((wordAt b 0).extractLsb' 3 3) ((wordAt b 0).extractLsb' 0 3) = some t)
    (hdst : t.cmpiDestination = true) :
    (b.length < 2 * (1 + AddrMode.immediate.ext w + t.ext w) → decode b = .error .malformed) ∧
    (2 * (1 + AddrMode.immediate.ext w + t.ext w) ≤ b.length →
      ∃ i, decode b = .ok i ∧ i.family = .cmpi ∧ i.lengthWords = 1 + AddrMode.immediate.ext w + t.ext w) := by
  rw [decode_of_cmpi_tag (by omega) htag, decodeCmpi, if_neg (by omega), if_neg (not_not_intro htag),
    if_neg (Nat.not_lt.mpr hlen), hw]
  simp only [ht, hdst, Bool.true_eq_false, if_false]
  refine ⟨fun hlt => if_pos (by omega), fun hge => ⟨_, if_neg (by omega), family_cmpi .., ?_⟩⟩
  rw [lengthWords_cmpi, mode_operandOf]

end Outcomes

/-- Settles O35: each field read as a number selects what the decoder's check of it looks up, and the mode and the width
it finds give the length. -/
theorem decodeOutcomeByTheOrderOfChecks : Obligations.DecodeOutcomeByTheOrderOfChecks := by
  rintro b op mode reg ext hop rfl rfl rfl
  obtain rfl : op = (wordAt b 0).toNat := hop.trans (toNat_wordAt_zero b).symm
  simp only [← toNat_mode, ← toNat_reg, ← toNat_opmode, ← toNat_size, ← tag_cmp_iff, ← tag_cmpi_iff]
  refine ⟨fun h => decode_malformed_of_decodeCmpi (decodeCmpi_malformed_of_lt_two h),
    fun h2 hcmp hcmpi => decode_noMatch h2 (mt (tag_cmp_iff _).mp hcmp) (mt (tag_cmpi_iff _).mp hcmpi),
    fun h2 htag h4 => decode_malformed_of_decodeCmpi (decodeCmpi_malformed_of_lt_four h2 h4 htag),
    fun h2 htag hbad => decode_cmp_illegalOperand h2 htag ?_,
    fun h4 htag hbad => decode_cmpi_illegalOperand h4 htag ?_,
    fun n h2 htag hsize hmode hn => ?_, fun n h4 htag hsize hmode₁ hmode hn => ?_⟩
  · rwa [opmodeWidth_isSome, eaMode_isSome]
  · rwa [sizeWidth_isSome, eaMode_any_cmpiDestination]
  · obtain ⟨w, hw⟩ := Option.isSome_iff_exists.mp ((opmodeWidth_isSome _).mpr hsize)
    obtain ⟨t, ht⟩ := Option.isSome_iff_exists.mp ((eaMode_isSome _ _).mpr hmode)
    obtain rfl : n = 1 + t.ext w := by
      simp only [hn, ext_of_eaMode ht, opmodeWidth_long hw]
    exact decode_cmp_length h2 htag hw ht
  · obtain ⟨w, hw⟩ := Option.isSome_iff_exists.mp ((sizeWidth_isSome _).mpr hsize)
    obtain ⟨t, ht, hdst⟩ := (Option.any_eq_true _ _).mp ((eaMode_any_cmpiDestination _ _).mpr ⟨hmode₁, hmode⟩)
    obtain rfl : n = 1 + AddrMode.immediate.ext w + t.ext w := by
      have hnotImmediate : ¬ (((wordAt b 0).extractLsb' 3 3).toNat = 7 ∧
          ((wordAt b 0).extractLsb' 0 3).toNat = 4 ∧ w = .long) := by omega
      rw [hn, ext_of_eaMode ht, if_neg hnotImmediate]
      simp only [ext_immediate, sizeWidth_long hw]
    exact decode_cmpi_length h4 htag hw ht hdst

/-- Settles O38: seven closed runs of the decoder. -/
theorem writtenOutWordsDecode : Obligations.WrittenOutWordsDecode :=
  ⟨by decide, by decide, by decide, by decide, by decide, by decide, by decide⟩

end Sys2Proof
end

section
/-! Memory (20_memory.md): reads and writes byte by byte, the canonical form, and the fetch window. -/

namespace Sys2Proof.Machine

/-! ### Big-endian numbers -/

@[simp] theorem bigEndian_concat (l : List Byte) (b : Byte) : bigEndian (l ++ [b]) = bigEndian l * 256 + b.toNat := by
  simp [bigEndian]

theorem bigEndian_lt (l : List Byte) : bigEndian l < 256 ^ l.length := by
  induction l using List.reverseRecOn with
  | nil => exact Nat.one_pos
  | append_singleton l b ih =>
    have hb := b.isLt
    rw [bigEndian_concat, List.length_append, List.length_singleton, Nat.pow_succ]
    omega

/-- Digit `i` from the top, to the base 256, of a big-endian number is byte `i` (R41). -/
theorem bigEndian_digit (l : List Byte) {i : Nat} (hi : i < l.length) :
    bigEndian l / 256 ^ (l.length - 1 - i) % 256 = l[i].toNat := by
  induction l using List.reverseRecOn with
  | nil => exact absurd hi (Nat.not_lt_zero i)
  | append_singleton l b ih =>
    have hb := b.isLt
    rw [bigEndian_concat, List.length_append, List.length_singleton, Nat.add_sub_cancel]
    rcases Nat.lt_or_ge i l.length with hlt | hge
    · have hexp : l.length - i = l.length - 1 - i + 1 := by omega
      have hdiv : (bigEndian l * 256 + b.toNat) / 256 = bigEndian l := by omega
      rw [hexp, Nat.pow_succ', ← Nat.div_div_eq_div_mul, hdiv, ih hlt, List.getElem_append_left hlt]
    · obtain rfl : i = l.length := by
        rw [List.length_append, List.length_singleton] at hi
        omega
      rw [Nat.sub_self, Nat.pow_zero, Nat.div_one, List.getElem_concat_length rfl]
      omega

/-! ### One access -/

@[simp] theorem length_accessAddresses (addr : Long) (n : Nat) : (accessAddresses addr n).length = n := by
  simp [accessAddresses]

@[simp] theorem getElem_accessAddresses (addr : Long) (n i : Nat) (hi : i < (accessAddresses addr n).length) :
    (accessAddresses addr n)[i] = addr + BitVec.ofNat 32 i := by
  simp [accessAddresses]

/-- Settles O10: the number read has the bytes as its digits; a fault carries the first address that is missing. -/
theorem readIsBigEndianOrFaultsAtTheFirstMissingByte : Obligations.ReadIsBigEndianOrFaultsAtTheFirstMissingByte := by
  intro m w addr
  refine ⟨fun hacc => ⟨_, read_of_accessible hacc, fun i hi => ?_⟩, fun i => read_of_firstMissing⟩
  set bytes := (accessAddresses addr w.bytes).map fun a => m.byteAt a.toNat with hbytes
  have hlen : bytes.length = w.bytes := by rw [hbytes, List.length_map, length_accessAddresses]
  have hfits : bigEndian bytes < 2 ^ w.bits := by
    rw [w.two_pow_bits, ← hlen]
    exact bigEndian_lt bytes
  rw [BitVec.toNat_ofNat, Nat.mod_eq_of_lt hfits, ← hlen, bigEndian_digit bytes (hlen ▸ hi)]
  simp [hbytes]

/-- The bytes of an access are at different addresses: no more than four of them, modulo 2^32. -/
theorem accessAddress_inj {addr : Long} {n i j : Nat} (hn : n ≤ 4) (hi : i < n) (hj : j < n)
    (h : (addr + BitVec.ofNat 32 i).toNat = (addr + BitVec.ofNat 32 j).toNat) : i = j := by
  simp only [BitVec.toNat_add, BitVec.toNat_ofNat] at h
  omega

/-- Byte `i` from the top of a value, with its address in a write at `addr` (R43). -/
def writtenByte {w : Width} (addr : Long) (v : Value w) (i : Nat) : Long × Byte :=
  (addr + BitVec.ofNat 32 i, BitVec.ofNat 8 (v.toNat / 256 ^ (w.bytes - 1 - i)))

theorem zip_accessAddresses_valueBytes {w : Width} (addr : Long) (v : Value w) :
    (accessAddresses addr w.bytes).zip (valueBytes v) = (List.range w.bytes).map (writtenByte addr v) :=
  List.zip_map'

theorem mem_zip_accessAddresses {w : Width} {addr : Long} {v : Value w} {q : Long × Byte} :
    q ∈ (accessAddresses addr w.bytes).zip (valueBytes v) ↔ ∃ i < w.bytes, writtenByte addr v i = q := by
  simp only [zip_accessAddresses_valueBytes, List.mem_map, List.mem_range]

/-- A write stores no address twice. -/
theorem nodup_zip_accessAddresses {w : Width} (addr : Long) (v : Value w) :
    (((accessAddresses addr w.bytes).zip (valueBytes v)).map fun q => q.1.toNat).Nodup := by
  rw [zip_accessAddresses_valueBytes, List.map_map]
  refine List.Nodup.map_on (fun i hi j hj => ?_) List.nodup_range
  exact accessAddress_inj w.bytes_le_four (List.mem_range.mp hi) (List.mem_range.mp hj)

theorem write_of_accessible {m : Memory} {w : Width} {addr : Long} (v : Value w) (h : m.accessible addr w.bytes) :
    m.write addr v = .ok (m.setBytes ((accessAddresses addr w.bytes).zip (valueBytes v))) := by
  rw [Memory.write, firstOutside_eq_none.mpr h]

theorem write_of_firstMissing {m : Memory} {w : Width} {addr : Long} {i : Nat} (v : Value w)
    (h : m.firstMissing addr w.bytes i) : m.write addr v = .error (.accessFault (addr + BitVec.ofNat 32 i)) := by
  rw [Memory.write, firstOutside_eq_some h]

/-- Settles O11: the stored addresses exist and differ, so each holds its byte afterwards and no other changes. -/
theorem writeStoresItsBytesAndNoOther : Obligations.WriteStoresItsBytesAndNoOther := by
  intro m w addr v hwf
  refine ⟨fun hacc => ⟨_, write_of_accessible v hacc, setBytes_size m _, fun i hi => ?_, fun a ha => ?_⟩,
    fun i => write_of_firstMissing v⟩
  · have hmem : ∀ q ∈ (accessAddresses addr w.bytes).zip (valueBytes v), q.1.toNat < m.size := by
      intro q hq
      obtain ⟨j, hj, rfl⟩ := mem_zip_accessAddresses.mp hq
      exact hacc j hj
    have hstored := byteAt_setBytes_of_mem hwf hmem (nodup_zip_accessAddresses addr v)
      (mem_zip_accessAddresses.mpr ⟨i, hi, rfl⟩)
    exact (congrArg BitVec.toNat hstored).trans (BitVec.toNat_ofNat _ 8)
  · refine byteAt_setBytes_other hwf fun q hq => ?_
    obtain ⟨j, hj, rfl⟩ := mem_zip_accessAddresses.mp hq
    exact ⟨hacc j hj, (ha j hj).symm⟩

/-! ### The canonical form -/

theorem lookupCell_eq_zero_of_ne {cells : List Host.Cell} {a : Nat} (h : ∀ c ∈ cells, c.1 ≠ a) :
    lookupCell cells a = 0#8 := by
  induction cells with
  | nil => rfl
  | cons c rest ih =>
    rw [lookupCell, if_neg (h c List.mem_cons_self)]
    exact ih fun d hd => h d (List.mem_cons_of_mem c hd)

/-- No byte is listed at or above the size. -/
theorem byteAt_of_size_le {m : Memory} (h : m.wf) {a : Nat} (ha : m.size ≤ a) : m.byteAt a = 0#8 := by
  obtain ⟨-, -, -, hcells⟩ := h
  exact lookupCell_eq_zero_of_ne fun c hc => ((hcells c hc).1.trans_le ha).ne

/-- Settles O12: bytes that do not exist read as 0, so the two agree at every address. -/
theorem canonicalMemoriesWithEqualBytesAreEqual : Obligations.CanonicalMemoriesWithEqualBytesAreEqual := by
  intro m m' hwf hwf' hsize hbytes
  have hcells : m.cells = m'.cells := cells_ext hwf.cells hwf'.cells fun a => by
    rcases Nat.lt_or_ge a m.size with hlt | hge
    · exact hbytes a hlt
    · exact (byteAt_of_size_le hwf hge).trans (byteAt_of_size_le hwf' (hsize ▸ hge)).symm
  cases m
  cases m'
  exact congrArg₂ Memory.mk hsize hcells

/-! ### The fetch window -/

/-- Byte `k` of the fetch window is the byte at `pc + k` (R53). -/
theorem getElem?_fetchWindow {s : State} {k : Nat} (hk : k < s.fetchWindow.length) :
    s.fetchWindow[k]? = some (s.mem.byteAt (s.pc.toNat + k)) := by
  rw [length_fetchWindow] at hk
  rw [State.fetchWindow, List.getElem?_map, List.getElem?_range hk]
  rfl

/-- Settles O13: the window ends where memory does, and its bytes are those from `pc` up. -/
theorem fetchWindowIsTheBytesFromPc : Obligations.FetchWindowIsTheBytesFromPc := by
  intro s
  refine ⟨length_fetchWindow s, fun k hk hin => getElem?_fetchWindow ?_⟩
  rw [length_fetchWindow]
  omega

/-- Settles O14: the window reads memory as it stands, where only the written byte differs. -/
theorem hostStoreIsSeenByTheNextFetch : Obligations.HostStoreIsSeenByTheNextFetch := by
  intro s a k b hwf ha hk
  have hk' : k < ((HostAction.writeByte a b).apply s).fetchWindow.length := by
    rw [length_fetchWindow, hostAction_keeps_size]
    rwa [length_fetchWindow] at hk
  have hbyte : ((HostAction.writeByte a b).apply s).mem.byteAt (s.pc.toNat + k) =
      if s.pc.toNat + k = a then b else s.mem.byteAt (s.pc.toNat + k) := byteAt_setByte hwf ha _ b
  calc ((HostAction.writeByte a b).apply s).fetchWindow[k]?
      = some (((HostAction.writeByte a b).apply s).mem.byteAt (s.pc.toNat + k)) := getElem?_fetchWindow hk'
    _ = some (if s.pc.toNat + k = a then b else s.mem.byteAt (s.pc.toNat + k)) := by rw [hbyte]
    _ = if s.pc.toNat + k = a then some b else s.fetchWindow[k]? := by
      rw [getElem?_fetchWindow hk]
      split <;> rfl

end Sys2Proof.Machine
end

section
/-! Operands (41_operand_resolution.md): the auto modes, the short absolute and PC-relative addresses, the write path;
and operations on values of two widths (40_sized_value.md). -/

namespace Sys2Proof.Machine

/-! ### The auto modes -/

/-- The step of an auto mode as a number (R125). -/
theorem eq_autoStep {n : Fin 8} {w : Width} {step : Long}
    (h : step.toNat = if n = 7 ∧ w = .byte then 2 else w.bytes) : step = autoStep n w := by
  apply BitVec.eq_of_toNat_eq
  rw [h, autoStep, spIndex]
  split
  · rfl
  · cases w <;> rfl

/-- Settles O6: a postincrement points at the old address, a predecrement at the new one, and the state of the place is
the stepped one. -/
theorem autoModesStepTheRegister : Obligations.AutoModesStepTheRegister := by
  intro w n s step hstep
  obtain rfl := eq_autoStep hstep
  have hpost : locate (.postincrement n : Operand w) s =
      .memory (s.getA n) (s.setA n (s.getA n + autoStep n w)) := rfl
  have hpre : locate (.predecrement n : Operand w) s =
      .memory (s.getA n - autoStep n w) (s.setA n (s.getA n - autoStep n w)) := rfl
  exact ⟨⟨fun v => resolve_ok_of_locate hpost, fun f => resolve_error_of_locate hpost⟩,
    ⟨fun v => resolve_ok_of_locate hpre, fun f => resolve_error_of_locate hpre⟩⟩

/-! ### Short absolute and PC-relative addresses -/

section AbsShort
variable {addr16 : Word}

/-- A short address below 0x8000 is the address (R129). -/
theorem toNat_absShortAddress_of_lt (h : addr16.toNat < 0x8000) : (absShortAddress addr16).toNat = addr16.toNat := by
  have hmsb : addr16.msb = false := by simpa [BitVec.msb_eq_decide] using h
  rw [absShortAddress, hmsb, if_neg Bool.false_ne_true, BitVec.toNat_setWidth_of_le (by decide)]

/-- From 0x8000 up zero extension keeps the number (R129). -/
theorem toNat_absShortAddress_of_zero (h : Config.absShortExt = .zero) :
    (absShortAddress addr16).toNat = addr16.toNat := by
  rw [absShortAddress, h]
  split <;> exact BitVec.toNat_setWidth_of_le (by decide)

/-- From 0x8000 up sign extension sets the upper half (R129). -/
theorem toNat_absShortAddress_of_sign (hge : 0x8000 ≤ addr16.toNat) (h : Config.absShortExt = .sign) :
    (absShortAddress addr16).toNat = addr16.toNat + 0xFFFF0000 := by
  have hmsb : addr16.msb = true := by simpa [BitVec.msb_eq_decide] using hge
  rw [absShortAddress, hmsb, if_pos rfl, h]
  simp only [BitVec.toNat_signExtend, hmsb, if_true, BitVec.toNat_setWidth_of_le (by decide : 16 ≤ 32)]

end AbsShort

/-- Settles O4: by the value of the open parameter, in the half of the addresses where it matters. -/
theorem absoluteShortWidensByTheOpenParameter : Obligations.AbsoluteShortWidensByTheOpenParameter := by
  intro w addr16 s ea hlow hzero hsign
  have hea : (absShortAddress addr16).toNat = ea := by
    rcases Nat.lt_or_ge addr16.toNat 0x8000 with hlt | hge
    · rw [toNat_absShortAddress_of_lt hlt, hlow hlt]
    · cases hext : Config.absShortExt with
      | zero => rw [toNat_absShortAddress_of_zero hext, hzero hge hext]
      | sign => rw [toNat_absShortAddress_of_sign hge hext, hsign hge hext]
  have hplace : locate (.absoluteShort addr16 : Operand w) s = .memory (BitVec.ofNat 32 ea) s := by
    rw [← hea, BitVec.ofNat_toNat, BitVec.setWidth_eq]
    rfl
  exact ⟨fun v => resolve_ok_of_locate hplace, fun f => resolve_error_of_locate hplace⟩

/-- Settles O5: the base is `pc` plus 0. -/
theorem pcRelativeReadsFromTheOpcodeWord : Obligations.PcRelativeReadsFromTheOpcodeWord := by
  rintro w disp s ea rfl
  have hplace : locate (.programCounterDisplacement disp : Operand w) s =
      .memory (BitVec.ofInt 32 (s.pc.toNat + disp.toInt)) s := by
    rw [ofInt_add_displacement, locate, pcrelBase, BitVec.add_zero]
  exact ⟨fun v => resolve_ok_of_locate hplace, fun f => resolve_error_of_locate hplace⟩

/-! ### The write path -/

/-- A register written at width `w` has the value in its low bytes and its own upper bytes (R135). -/
theorem toNat_replaceLow {w : Width} (r : Long) (v : Value w) :
    (replaceLow r v).toNat = 2 ^ (8 * w.bytes) * (r.toNat / 2 ^ (8 * w.bytes)) + v.toNat := by
  have hr := r.isLt
  have hv := toNat_lt_two_pow v
  rw [replaceLow, BitVec.toNat_ofNat]
  generalize v.toNat = x at hv ⊢
  rw [w.bits_eq_eight_mul_bytes, Nat.mul_comm, Nat.mod_eq_of_lt]
  cases w <;> simp only [Width.bytes_byte, Width.bytes_word, Width.bytes_long] at hv ⊢ <;> omega

theorem replaceLow_low {w : Width} (r : Long) (v : Value w) :
    (replaceLow r v).toNat % 2 ^ (8 * w.bytes) = v.toNat := by
  rw [toNat_replaceLow, Nat.mul_add_mod, Nat.mod_eq_of_lt (toNat_lt_two_pow v)]

theorem replaceLow_high {w : Width} (r : Long) (v : Value w) :
    (replaceLow r v).toNat / 2 ^ (8 * w.bytes) = r.toNat / 2 ^ (8 * w.bytes) := by
  rw [toNat_replaceLow, Nat.mul_add_div (Nat.two_pow_pos _), Nat.div_eq_of_lt (toNat_lt_two_pow v), Nat.add_zero]

/-- Every mode but the PC-relative one is written through its place (R135). -/
theorem resolveWrite_eq_writePlace {w : Width} {op : Operand w} (h : op.mode ≠ .programCounterDisplacement)
    (s : State) (v : Value w) : resolveWrite op s v = writePlace (locate op s) s v := by
  unfold resolveWrite
  cases hm : op.mode with
  | programCounterDisplacement => exact absurd hm h
  | _ => rfl

/-- Settles O9: a register keeps its upper bytes, a memory place is stored to at its address with its side effect, and
the two other places refuse. -/
theorem writePathStoresWhereTheOperandPoints : Obligations.WritePathStoresWhereTheOperandPoints := by
  intro w s v
  refine ⟨fun n => ⟨_, rfl, replaceLow_low _ v, replaceLow_high _ v⟩,
    fun n => ⟨_, rfl, replaceLow_low _ v, replaceLow_high _ v⟩, fun value => rfl, fun disp => rfl,
    fun op ea after hmode hplace => ?_⟩
  rw [resolveWrite_eq_writePlace hmode, hplace]
  exact ⟨fun m hm => by rw [writePlace, hm], fun f hf => by rw [writePlace, hf]⟩

/-! ### Two widths -/

/-- Settles O20: every operation compares the widths first. -/
theorem mixedWidthsAreRejected : Obligations.MixedWidthsAreRejected :=
  fun _ _ h => ⟨if_neg h, if_neg h, if_neg h, if_neg h, if_neg h⟩

end Sys2Proof.Machine
end

section
/-! The flag generator (43_flag_generator.md section 3): the flags as facts about numbers, and the gate forms. -/

namespace Sys2Proof.Machine

section Numbers
variable {w : Width} (src dst : Value w)

/-- Zero is equality (R192, R197). -/
theorem subFlags_z_iff : (subFlags src dst).z = true ↔ src = dst := by
  rw [subFlags, decide_eq_true_iff, eq_comm (a := src)]
  exact sub_eq_zero

/-- Negative is the top bit of the difference modulo 2^(8w) (R191). -/
theorem subFlags_n_iff : (subFlags src dst).n = true ↔
    2 ^ (8 * w.bytes - 1) ≤ ((dst.toNat : Int) - src.toNat) % 2 ^ (8 * w.bytes) := by
  rw [← toNat_sub_eq_emod dst src]
  exact (msb_iff (dst - src)).trans (by norm_cast)

/-- Overflow is the signed overflow of the subtraction (R193). -/
theorem subFlags_v_eq_ssubOverflow : (subFlags src dst).v = dst.ssubOverflow src := by
  rw [BitVec.ssubOverflow_eq, subFlags]
  cases src.msb <;> cases dst.msb <;> cases (dst - src).msb <;> rfl

/-- Overflow is a signed difference out of range (R197). -/
theorem subFlags_v_iff : (subFlags src dst).v = true ↔
    dst.toInt - src.toInt < -2 ^ (8 * w.bytes - 1) ∨ 2 ^ (8 * w.bytes - 1) - 1 < dst.toInt - src.toInt := by
  rw [subFlags_v_eq_ssubOverflow, BitVec.ssubOverflow, Bool.or_eq_true, decide_eq_true_iff, decide_eq_true_iff,
    ← Width.bits_eq_eight_mul_bytes, or_comm, Int.sub_one_lt_iff]

/-- The difference as a number: the plain one, or with a whole range added where it borrows. -/
theorem toNat_sub_cases : (src.toNat ≤ dst.toNat ∧ (dst - src).toNat = dst.toNat - src.toNat) ∨
    (dst.toNat < src.toNat ∧ (dst - src).toNat = dst.toNat + 2 ^ w.bits - src.toNat) := by
  rcases Nat.lt_or_ge dst.toNat src.toNat with hlt | hge
  · have hsrc := src.isLt
    exact .inr ⟨hlt, (BitVec.toNat_sub_of_lt hlt).trans (by omega)⟩
  · exact .inl ⟨hge, BitVec.toNat_sub_of_le hge⟩

/-- Carry from the top bits of the operands and of the difference (R197): the source is above, or it is not below and
the difference has borrowed into the top bit. -/
theorem subFlags_c_eq_gate : (subFlags src dst).c =
    ((src.msb && !dst.msb) || ((subFlags src dst).n && !dst.msb) || (src.msb && (subFlags src dst).n)) := by
  have hhalf : 2 ^ w.bits = 2 * 2 ^ (w.bits - 1) := (mul_pow_sub_one w.bits_pos.ne' 2).symm
  have hsrc := src.isLt
  have hdst := dst.isLt
  have hdiff := toNat_sub_cases src dst
  rw [Bool.eq_iff_iff, subFlags_c_iff]
  simp only [subFlags, BitVec.msb_eq_decide, Bool.or_eq_true, Bool.and_eq_true, Bool.not_eq_true',
    decide_eq_true_iff, decide_eq_false_iff_not]
  omega

/-- Negative and Overflow differ exactly on the signed order (R197): the gate forms of both and of Carry leave the
signed comparison. -/
theorem subFlags_n_ne_v_iff : ((subFlags src dst).n != (subFlags src dst).v) = true ↔ dst.toInt < src.toInt := by
  have hult : dst.ult src = (subFlags src dst).c := rfl
  have hgates : ∀ s d n : Bool, (n != ((s != d) && (n != d))) =
      ((d != s) ^^ ((s && !d) || (n && !d) || (s && n))) := by decide
  rw [← BitVec.slt_iff_toInt_lt, BitVec.slt_eq_ult, hult, subFlags_c_eq_gate]
  exact iff_of_eq (congrArg (· = true) (hgates src.msb dst.msb (dst - src).msb))

end Numbers

/-- Settles O16: each flag by its fact about numbers, V in its gate form by definition. -/
theorem flagsDecideBothOrders : Obligations.FlagsDecideBothOrders := fun _ src dst =>
  ⟨subFlags_z_iff src dst, subFlags_c_iff src dst, subFlags_n_iff src dst, subFlags_v_iff src dst,
    subFlags_n_ne_v_iff src dst, subFlags_c_eq_gate src dst, rfl⟩

end Sys2Proof.Machine
end

section
/-! The step and its outcomes (46_step.md, 60_exceptions.md): what a step runs, how it stops and with which code; and
that a compare reads no more of a data register than its width. -/

namespace Sys2Proof.Machine

/-! ### The step -/

theorem step_of_decode {s : State} {i : Instr} (h : decode s.fetchWindow = .ok i) : step s = exec i s := by
  rw [step, h]

theorem step_of_reject {s : State} {r : Reject} (h : decode s.fetchWindow = .error r) :
    step s = .fault (Fault.ofReject r) := by
  rw [step, h]

/-- Settles O44: by the decoder's answer. -/
theorem stepRunsTheDecodedInstruction : Obligations.StepRunsTheDecodedInstruction :=
  fun _ => ⟨fun _ => step_of_decode, step_of_reject, step_of_reject, step_of_reject⟩

/-- How an instruction stops: with the `AccessFault` of an address outside memory (R245, R247). -/
theorem exec_next_or_outside (i : Instr) (s : State) :
    (∃ t, exec i s = .next t) ∨ ∃ a, exec i s = .fault (.accessFault a) ∧ s.mem.size ≤ a.toNat := by
  rcases instr_cases i with ⟨w, src, dn, rfl⟩ | ⟨w, value, dst, rfl⟩
  · rcases exec_cmp_cases src dn s with ⟨-, v, -, hn⟩ | ⟨-, ea, k, -, ⟨-, hout, -⟩, hf⟩
    · exact .inl ⟨_, hn⟩
    · exact .inr ⟨_, hf, hout⟩
  · rcases exec_cmpi_cases value dst s with ⟨-, v, -, hn⟩ | ⟨-, ea, k, -, ⟨-, hout, -⟩, hf⟩
    · exact .inl ⟨_, hn⟩
    · exact .inr ⟨_, hf, hout⟩

/-- What a step can answer, once: a next state, the `AccessFault` of a decoded instruction, or the decoder's answer. -/
theorem step_outcome (s : State) :
    (∃ t, step s = .next t) ∨
    (∃ i a, decode s.fetchWindow = .ok i ∧ step s = .fault (.accessFault a)) ∨
    ∃ r, step s = .fault (Fault.ofReject r) := by
  rcases step_cases s with ⟨i, hd, hs⟩ | ⟨r, -, hs⟩
  · rcases exec_next_or_accessFault i s with ⟨t, ht⟩ | ⟨a, ha⟩
    · exact .inl ⟨t, hs.trans ht⟩
    · exact .inr (.inl ⟨i, a, hd, hs.trans ha⟩)
  · exact .inr (.inr ⟨r, hs⟩)

/-- How a step stops (R241 to R245). -/
theorem step_fault {s : State} {f : Fault} (h : step s = .fault f) :
    (∃ i a, decode s.fetchWindow = .ok i ∧ f = .accessFault a) ∨ ∃ r, f = Fault.ofReject r := by
  rcases step_outcome s with ⟨t, ht⟩ | ⟨i, a, hd, ha⟩ | ⟨r, hr⟩
  · rw [ht] at h; cases h
  · rw [ha] at h; cases h
    exact .inl ⟨i, a, hd, rfl⟩
  · rw [hr] at h; cases h
    exact .inr ⟨r, rfl⟩

theorem step_ne_refused (s : State) (r : Refusal) : step s ≠ .refused r := by
  rcases step_next_or_stopped s with ⟨t, ht⟩ | ⟨f, hf⟩
  · rw [ht]; exact nofun
  · rw [hf]; exact nofun

/-- Settles O46: the decoder's three answers and the access fault of a decoded instruction are all there is. -/
theorem stopsAreTheNamedOutcomes : Obligations.StopsAreTheNamedOutcomes := by
  refine ⟨fun s f h => ?_, step_ne_refused, fun i s f h => ?_, fun i s r h => ?_, fun s a h => ?_⟩
  · rcases step_fault h with ⟨i, a, -, rfl⟩ | ⟨r, rfl⟩
    · exact .inr (.inr (.inr ⟨a, rfl⟩))
    · cases r with
      | illegalOperand => exact .inr (.inr (.inl rfl))
      | noMatch => exact .inl rfl
      | malformed => exact .inr (.inl rfl)
  · rcases exec_next_or_outside i s with ⟨t, ht⟩ | ⟨a, ha, hout⟩
    · rw [ht] at h; cases h
    · rw [ha] at h; cases h
      exact ⟨a, rfl, hout⟩
  · rcases exec_next_or_outside i s with ⟨t, ht⟩ | ⟨a, ha, -⟩
    · rw [ht] at h; cases h
    · rw [ha] at h; cases h
  · rcases step_fault h with ⟨i, a', hd, -⟩ | ⟨r, hr⟩
    · exact ⟨i, hd⟩
    · cases r <;> cases hr

/-! ### The load -/

theorem decode_tableBytes {nbits w : Nat} {i : Instr} (h : decodeTableWord nbits w = some i) :
    decode (tableBytes nbits w) = .ok i := by
  unfold decodeTableWord at h
  split at h
  · cases h; assumption
  · cases h

/-- Settles O53: the ten bytes put at `pc` are the next fetch window. -/
theorem placedInstructionIsTheOneRun : Obligations.PlacedInstructionIsTheOneRun := by
  intro s nbits w i hwf hroom hw
  refine ⟨step_of_decode ?_, by simp only [State.withFetchWord], fun a ha => ?_⟩
  · rw [fetchWindow_withFetchWord hwf hroom]
    exact decode_tableBytes hw
  · rw [withFetchWord_mem, byteAt_putBytes hwf (by rw [length_tableBytes]; exact hroom), length_tableBytes,
      if_neg (by omega)]

/-! ### Codes -/

/-- Settles O54: by the outcomes each function can have. -/
theorem outcomesHaveTheirNumericCodes : Obligations.OutcomesHaveTheirNumericCodes := by
  refine ⟨fun α r => ?_, fun b => ?_, fun s => ?_⟩
  · cases r with
    | ok x => simp [okCode]
    | error f => cases f <;> simp [Fault.code]
  · cases decode b with
    | ok i => simp [okCode]
    | error r => cases r <;> simp [Fault.ofReject, Fault.code]
  · rcases step_outcome s with ⟨t, ht⟩ | ⟨i, a, -, ha⟩ | ⟨r, hr⟩
    · simp [ht, okCode]
    · simp [ha, Fault.code]
    · rw [hr]
      cases r <;> simp [Fault.ofReject, Fault.code]

/-! ### The upper bytes of the data registers -/

/-- The data registers replaced and everything else kept. -/
def State.withD (s : State) (d' : Vector Long 8) : State := { s with d := d' }

/-- Data registers with the low `w` bytes of others. -/
abbrev sameLow (w : Width) (d' d : Vector Long 8) : Prop :=
  ∀ k : Fin 8, d'[k].toNat % 2 ^ (8 * w.bytes) = d[k].toNat % 2 ^ (8 * w.bytes)

/-- A place with the data registers replaced in the state it carries. -/
def Place.withD {w : Width} (d' : Vector Long 8) : Place w → Place w
  | .dataRegister n => .dataRegister n
  | .addressRegister n => .addressRegister n
  | .literal value => .literal value
  | .memory ea after => .memory ea (after.withD d')

/-- No effective address and no side effect depends on a data register. -/
theorem locate_withD {w : Width} (op : Operand w) (s : State) (d' : Vector Long 8) :
    locate op (s.withD d') = (locate op s).withD d' := by
  cases op <;> rfl

theorem narrow_withD {w : Width} {s : State} {d' : Vector Long 8} (h : sameLow w d' s.d) (n : Fin 8) :
    narrow w ((s.withD d').getD n) = narrow w (s.getD n) :=
  BitVec.eq_of_toNat_eq ((toNat_narrow w _).trans ((h n).trans (toNat_narrow w _).symm))

/-- A resolution at width `w` gives the same value or the same fault, and passes the registers through. -/
theorem resolve_withD {w : Width} (op : Operand w) {s : State} {d' : Vector Long 8} (h : sameLow w d' s.d) :
    resolve op (s.withD d') = (resolve op s).map fun p => (p.1, p.2.withD d') := by
  unfold resolve
  rw [locate_withD]
  cases locate op s with
  | dataRegister n => exact congrArg (fun v => Except.ok (v, s.withD d')) (narrow_withD h n)
  | addressRegister n => rfl
  | literal value => rfl
  | memory ea after =>
    have hmem : (s.withD d').mem = s.mem := rfl
    simp only [Place.withD, hmem]
    cases s.mem.read w ea <;> rfl

theorem compareOperands_withD {w : Width} (src dst : Operand w) {s : State} {d' : Vector Long 8}
    (h : sameLow w d' s.d) :
    compareOperands src dst (s.withD d') = mapNext (fun t => t.withD d') (compareOperands src dst s) := by
  unfold compareOperands
  rw [resolve_withD src h]
  cases hsrc : resolve src s with
  | error f => rfl
  | ok p =>
    obtain ⟨sv, s1⟩ := p
    have hd : s1.d = s.d := by rw [resolve_ok_state hsrc, afterStep_d]
    simp only [Except.map, resolve_withD dst (hd ▸ h : sameLow w d' s1.d)]
    cases resolve dst s1 with
    | error f => rfl
    | ok q => rfl

/-- Settles O30: both operands are read at the instruction's width, and no data register is written. -/
theorem narrowCompareIgnoresUpperBytes : Obligations.NarrowCompareIgnoresUpperBytes := by
  intro i s d' h
  have hexec : exec i (s.withD d') = mapNext (fun t => t.withD d') (exec i s) := by
    simp only [exec_eq_compareOperands]
    exact compareOperands_withD i.src i.dst h
  refine hexec.trans ?_
  cases exec i s <;> rfl

end Sys2Proof.Machine
end

section
/-! The instruction contract (42_decoder_dispatch.md sections 1 to 4): Construct, the mnemonics, the static length. -/

namespace Sys2Proof.Machine

/-! ### Operand records -/

theorem toInt_word_bounds (x : Word) : -32768 ≤ x.toInt ∧ x.toInt ≤ 32767 := by
  have hlow := BitVec.le_toInt x
  have hhigh := BitVec.toInt_lt (x := x)
  omega

/-- An operand is what its record makes at its width. -/
theorem operandOfRecord_recordOfOperand {w : Width} (op : Operand w) :
    operandOfRecord w (recordOfOperand op) = some op := by
  cases op with
  | dataRegisterDirect n => exact dif_pos n.isLt
  | addressRegisterDirect n => exact dif_pos n.isLt
  | addressRegisterIndirect n => exact dif_pos n.isLt
  | postincrement n => exact dif_pos n.isLt
  | predecrement n => exact dif_pos n.isLt
  | indirectWithDisplacement n disp =>
    rw [recordOfOperand, operandOfRecord, dif_pos n.isLt, if_pos (toInt_word_bounds disp), BitVec.ofInt_toInt]
  | absoluteShort addr16 =>
    rw [recordOfOperand, operandOfRecord, if_pos addr16.isLt, BitVec.ofNat_toNat, BitVec.setWidth_eq]
  | absoluteLong addr32 =>
    rw [recordOfOperand, operandOfRecord, if_pos addr32.isLt, BitVec.ofNat_toNat, BitVec.setWidth_eq]
  | programCounterDisplacement disp =>
    rw [recordOfOperand, operandOfRecord, if_pos (toInt_word_bounds disp), BitVec.ofInt_toInt]
  | immediate value =>
    rw [recordOfOperand, operandOfRecord, BitVec.ofInt_natCast, BitVec.ofNat_toNat, BitVec.setWidth_eq]

/-- A record makes an operand exactly if its payload is in range, and then one of its own mode (R151). -/
theorem operandOfRecord_cases (w : Width) (r : OperandRecord) :
    (recordInRange r ∧ ∃ op, operandOfRecord w r = some op ∧ op.mode = recordMode r) ∨
    (¬ recordInRange r ∧ operandOfRecord w r = none) := by
  cases r with
  | immediate value => exact .inl ⟨trivial, _, rfl, rfl⟩
  | indirectWithDisplacement n disp =>
    simp only [operandOfRecord, recordInRange]
    split
    · split
      · exact .inl ⟨by omega, _, rfl, rfl⟩
      · exact .inr ⟨by omega, rfl⟩
    · exact .inr ⟨by omega, rfl⟩
  | _ =>
    simp only [operandOfRecord, recordInRange]
    split
    · exact .inl ⟨by omega, _, rfl, rfl⟩
    · exact .inr ⟨by omega, rfl⟩

/-! ### Positions -/

/-- The modes a family takes in its two positions (R151). -/
abbrev legalModes (family : Family) (src dst : AddrMode) : Prop :=
  (family = .cmp → dst = .dataRegisterDirect) ∧
  (family = .cmpi → src = .immediate ∧ dst ≠ .addressRegisterDirect ∧ dst ≠ .immediate)

theorem cmpiDestination_iff (t : AddrMode) :
    t.cmpiDestination = true ↔ t ≠ .addressRegisterDirect ∧ t ≠ .immediate := by
  cases t <;> decide

theorem placeCmp_cases {w : Width} (src dst : Operand w) :
    (dst.mode = .dataRegisterDirect ∧ ∃ dn, placeCmp src dst = some (Instr.cmp w src dn)) ∨
    (dst.mode ≠ .dataRegisterDirect ∧ placeCmp src dst = none) := by
  cases dst with
  | dataRegisterDirect n => exact .inl ⟨rfl, n, rfl⟩
  | _ => exact .inr ⟨nofun, rfl⟩

theorem placeCmpi_cases {w : Width} (src dst : Operand w) :
    (src.mode = .immediate ∧ dst.mode.cmpiDestination = true ∧
      ∃ value, placeCmpi src dst = some (Instr.cmpi w value dst)) ∨
    (¬ (src.mode = .immediate ∧ dst.mode.cmpiDestination = true) ∧ placeCmpi src dst = none) := by
  cases src with
  | immediate value =>
    by_cases hdst : dst.mode.cmpiDestination = true
    · exact .inl ⟨rfl, hdst, value, if_pos hdst⟩
    · exact .inr ⟨fun ⟨_, h⟩ => hdst h, if_neg hdst⟩
  | _ => exact .inr ⟨fun ⟨h, _⟩ => absurd h nofun, rfl⟩

/-- Two operands make an instruction exactly if their modes are legal in their positions, and then a well-formed one of
the family and the width (R151). -/
theorem placeOperands_cases {w : Width} (family : Family) (src dst : Operand w) :
    (legalModes family src.mode dst.mode ∧ ∃ i, placeOperands family src dst = some i ∧
      i.wf = true ∧ i.family = family ∧ i.width = w) ∨
    (¬ legalModes family src.mode dst.mode ∧ placeOperands family src dst = none) := by
  cases family with
  | cmp =>
    rcases placeCmp_cases src dst with ⟨hmode, dn, hi⟩ | ⟨hmode, hnone⟩
    · exact .inl ⟨⟨fun _ => hmode, nofun⟩, _, hi, wf_cmp w src dn, family_cmp w src dn, width_cmp w src dn⟩
    · exact .inr ⟨fun ⟨hcmp, _⟩ => hmode (hcmp rfl), hnone⟩
  | cmpi =>
    rcases placeCmpi_cases src dst with ⟨hsrc, hdst, value, hi⟩ | ⟨hmodes, hnone⟩
    · exact .inl ⟨⟨nofun, fun _ => ⟨hsrc, (cmpiDestination_iff _).mp hdst⟩⟩, _, hi,
        (wf_cmpi w value dst).trans hdst, family_cmpi w dst value, width_cmpi w dst value⟩
    · exact .inr ⟨fun ⟨_, hcmpi⟩ => hmodes ((hcmpi rfl).imp id (cmpiDestination_iff _).mpr), hnone⟩

/-! ### Construct -/

theorem construct_of_some {family : Family} {ops : List OperandRecord} {tag : Nat} {i : Instr}
    (h : construct? family ops tag = some i) : construct family ops tag = .ok i := by
  rw [construct, h]

theorem construct_of_none {family : Family} {ops : List OperandRecord} {tag : Nat}
    (h : construct? family ops tag = none) : construct family ops tag = .error .illegalOperand := by
  rw [construct, h]

/-- At a width, two records make what their two operands make. -/
theorem construct?_pair (family : Family) (rs rd : OperandRecord) (w : Width) :
    construct? family [rs, rd] w.bytes =
      (operandOfRecord w rs).bind fun src => (operandOfRecord w rd).bind (placeOperands family src) := by
  rw [construct?, Width.ofBytes_bytes]
  rfl

theorem construct?_of_not_tag {tag : Nat} (h : tag ∉ [1, 2, 4]) (family : Family) (ops : List OperandRecord) :
    construct? family ops tag = none := by
  rw [construct?, Width.ofBytes_eq_none h]
  rfl

/-- Construct takes two records, no fewer and no more. -/
theorem construct?_of_not_pair {ops : List OperandRecord} (h : ∀ rs rd, ops ≠ [rs, rd]) (family : Family)
    (w : Width) : construct? family ops w.bytes = none := by
  rw [construct?, Width.ofBytes_bytes]
  match ops with
  | [] => rfl
  | [_] => rfl
  | [rs, rd] => exact absurd rfl (h rs rd)
  | _ :: _ :: _ :: _ => rfl

/-- Two records the checks of R151 pass: payloads in range, modes legal. -/
abbrev legalPair (family : Family) (rs rd : OperandRecord) : Prop :=
  recordInRange rs ∧ recordInRange rd ∧ legalModes family (recordMode rs) (recordMode rd)

theorem construct?_pair_cases (family : Family) (rs rd : OperandRecord) (w : Width) :
    (legalPair family rs rd ∧ ∃ i, construct? family [rs, rd] w.bytes = some i ∧
      i.wf = true ∧ i.family = family ∧ i.width = w) ∨
    (¬ legalPair family rs rd ∧ construct? family [rs, rd] w.bytes = none) := by
  rw [construct?_pair]
  rcases operandOfRecord_cases w rs with ⟨hrs, src, hsrc, hsm⟩ | ⟨hrs, hsrc⟩
  · rcases operandOfRecord_cases w rd with ⟨hrd, dst, hdst, hdm⟩ | ⟨hrd, hdst⟩
    · simp only [hsrc, hdst, Option.bind_some, legalPair, hrs, hrd, true_and, ← hsm, ← hdm]
      exact placeOperands_cases family src dst
    · exact .inr ⟨fun ⟨_, hin, _⟩ => hrd hin, by rw [hsrc, hdst]; rfl⟩
  · exact .inr ⟨fun ⟨hin, _⟩ => hrs hin, by rw [hsrc]; rfl⟩

/-- Settles O40: the checks are those of the tag, of the number of records, and of the two records. -/
theorem constructAcceptsExactlyTheLegal : Obligations.ConstructAcceptsExactlyTheLegal := by
  intro family ops tag
  refine ⟨fun ⟨rs, rd, htag, hops, hrs, hrd, hcmp, hcmpi⟩ => ?_, fun hillegal => construct_of_none ?_⟩
  · subst hops
    obtain ⟨w, rfl⟩ := Width.mem_tags_iff.mp htag
    rcases construct?_pair_cases family rs rd w with ⟨-, i, hi, hwf, hfamily, hwidth⟩ | ⟨hillegal, -⟩
    · exact ⟨i, construct_of_some hi, hwf, hfamily, congrArg Width.bytes hwidth⟩
    · exact absurd ⟨hrs, hrd, hcmp, hcmpi⟩ hillegal
  · by_cases htag : tag ∈ [1, 2, 4]
    · obtain ⟨w, rfl⟩ := Width.mem_tags_iff.mp htag
      by_cases hpair : ∃ rs rd, ops = [rs, rd]
      · obtain ⟨rs, rd, rfl⟩ := hpair
        rcases construct?_pair_cases family rs rd w with ⟨⟨hrs, hrd, hcmp, hcmpi⟩, -⟩ | ⟨-, hnone⟩
        · exact absurd ⟨rs, rd, htag, rfl, hrs, hrd, hcmp, hcmpi⟩ hillegal
        · exact hnone
      · exact construct?_of_not_pair (fun rs rd h => hpair ⟨rs, rd, h⟩) family w
    · exact construct?_of_not_tag htag family ops

/-- The operands of a well-formed instruction make it. -/
theorem placeOperands_src_dst {i : Instr} (h : i.wf = true) : placeOperands i.family i.src i.dst = some i := by
  cases i with
  | cmpB src dn => rfl
  | cmpW src dn => rfl
  | cmpL src dn => rfl
  | cmpiB value dst => exact if_pos h
  | cmpiW value dst => exact if_pos h
  | cmpiL value dst => exact if_pos h

/-- Settles O39: the decoder checks the destination's mode; the records of operands make them again. -/
theorem decodedInstructionsAreConstructible : Obligations.DecodedInstructionsAreConstructible := by
  refine ⟨fun b i => wf_of_decode, fun i hwf => construct_of_some ?_⟩
  rw [recordsOf, construct?_pair, operandOfRecord_recordOfOperand, operandOfRecord_recordOfOperand]
  exact placeOperands_src_dst hwf

/-- Integers that agree modulo 2^(8w) make the same `w`-byte number (R152). -/
theorem ofInt_eq_of_emod_eq {w : Width} {m m' : Int} (h : m % 2 ^ (8 * w.bytes) = m' % 2 ^ (8 * w.bytes)) :
    BitVec.ofInt w.bits m = BitVec.ofInt w.bits m' := by
  apply BitVec.eq_of_toNat_eq
  rw [← Nat.cast_inj (R := Int), toNat_ofInt_eq_emod, toNat_ofInt_eq_emod, h]

/-- Settles O41: the two records make the same operand at the width, and no width makes nothing of either. -/
theorem constructReducesImmediates : Obligations.ConstructReducesImmediates := by
  intro tag m m' other hmod
  have heq : ∀ family, construct? family [.immediate m, other] tag = construct? family [.immediate m', other] tag := by
    intro family
    by_cases htag : tag ∈ [1, 2, 4]
    · obtain ⟨w, rfl⟩ := Width.mem_tags_iff.mp htag
      rw [construct?_pair, construct?_pair, operandOfRecord, operandOfRecord, ofInt_eq_of_emod_eq hmod]
    · rw [construct?_of_not_tag htag, construct?_of_not_tag htag]
  simp only [construct, heq, and_self]

/-! ### Mnemonics -/

/-- The suffix letters (R93). -/
theorem suffixLetter_isSome (c : Char) : (∃ w, suffixLetter c = some w) ↔ c = 'B' ∨ c = 'W' ∨ c = 'L' := by
  unfold suffixLetter
  split_ifs with hB hW hL
  · simp [hB]
  · simp [hW]
  · simp [hL]
  · simp [hB, hW, hL]

/-- A text has a size suffix exactly if it ends in a full stop and a suffix letter. -/
theorem suffixWidth_eq_some {t : Text} {w : Width} :
    suffixWidth t = some w ↔ ∃ m c, t = m ++ ['.', c] ∧ suffixLetter c = some w := by
  constructor
  · intro h
    unfold suffixWidth at h
    split at h
    · rename_i c rest hrev
      refine ⟨rest.reverse, c, ?_, h⟩
      rw [← List.reverse_reverse t, hrev]
      simp
    · cases h
  · rintro ⟨m, c, rfl, hc⟩
    simp [suffixWidth, hc]

/-- Stripping gives a text without suffix exactly from that text and from it with one suffix (R155). -/
theorem stripSuffix_eq_iff {t m : Text} (hm : suffixWidth m = none) :
    stripSuffix t = m ↔ t = m ∨ ∃ c, (c = 'B' ∨ c = 'W' ∨ c = 'L') ∧ t = m ++ ['.', c] := by
  have hstrip : ∀ {c w}, suffixLetter c = some w → ∀ m', stripSuffix (m' ++ ['.', c]) = m' := by
    intro c w hc m'
    have hw : suffixWidth (m' ++ ['.', c]) = some w := suffixWidth_eq_some.mpr ⟨m', c, rfl, hc⟩
    simp [stripSuffix, hw]
  constructor
  · intro h
    cases hw : suffixWidth t with
    | none =>
      rw [stripSuffix, hw] at h
      exact .inl h
    | some w =>
      obtain ⟨m', c, rfl, hc⟩ := suffixWidth_eq_some.mp hw
      rw [hstrip hc] at h
      exact .inr ⟨c, (suffixLetter_isSome c).mp ⟨w, hc⟩, by rw [h]⟩
  · rintro (rfl | ⟨c, hc, rfl⟩)
    · rw [stripSuffix, hm]
    · obtain ⟨w, hw⟩ := (suffixLetter_isSome c).mpr hc
      exact hstrip hw m

theorem matchesText_iff {f : Family} {t : Text} : matchesText f t = true ↔ t ∈ [mnemonicText f,
    mnemonicText f ++ ['.', 'B'], mnemonicText f ++ ['.', 'W'], mnemonicText f ++ ['.', 'L']] := by
  have hm : suffixWidth (mnemonicText f) = none := by cases f <;> decide
  rw [matchesText, decide_eq_true_iff, stripSuffix_eq_iff hm]
  simp

/-- No text is claimed by both families. -/
theorem matchesText_unique {f g : Family} {t : Text} (hf : matchesText f t = true) (hg : matchesText g t = true) :
    f = g := by
  have h : mnemonicText f = mnemonicText g := (of_decide_eq_true hf).symm.trans (of_decide_eq_true hg)
  cases f with
  | cmp =>
    cases g with
    | cmp => rfl
    | cmpi => exact absurd h (by decide)
  | cmpi =>
    cases g with
    | cmp => exact absurd h (by decide)
    | cmpi => rfl

/-- The dispatch answers the family that claims the text, whatever the order of the probes (R156). -/
theorem textDispatch_eq_some {f : Family} {t : Text} : textDispatch t = some f ↔ matchesText f t = true := by
  refine ⟨fun h => List.find?_some (p := fun f => matchesText f t) h, fun h => ?_⟩
  have hmem : f ∈ [Family.cmpi, Family.cmp] := by cases f <;> decide
  cases hd : textDispatch t with
  | none => exact absurd h (List.find?_eq_none.mp hd f hmem)
  | some g => rw [matchesText_unique h (List.find?_some (p := fun f => matchesText f t) hd)]

/-- Settles O42: a family matches the texts that strip to its mnemonic, which has no suffix itself. -/
theorem matchesTheWholeMnemonic : Obligations.MatchesTheWholeMnemonic :=
  fun _ => ⟨matchesText_iff, matchesText_iff, textDispatch_eq_some, textDispatch_eq_some⟩

/-! ### Static length -/

/-- Settles O43: the formula of the length takes the operands' modes only, and the suffix gives the width. -/
theorem staticLengthIsHalfTheEncoding : Obligations.StaticLengthIsHalfTheEncoding := by
  intro i t _ _ hw
  refine ⟨i.lengthWords, ?_, (length_encode i).symm⟩
  rw [staticWordLength, hw]
  rfl

end Sys2Proof.Machine
end
